-- ==== Sys2Proof/Word.lean ====
section
/-! DEFINITION. The two widths of R10 (00_scope.md): a byte is 8 bits, a word is 32 bits. -/

namespace Sys2Proof

/-- A byte: 8 bits, unsigned (R10). -/
abbrev Byte := BitVec 8

/-- A word: 32 bits, unsigned (R10); the width of every host register and schedule word (R8). -/
abbrev Word := BitVec 32

end Sys2Proof
end

