-- ==== Sys2Proof/Syntax.lean ====
section
/-! DEFINITION. The commands of AES-CORE, one constructor per row of spec/opcode_table.json (R51, 30_encoding.md). -/

namespace Sys2Proof

/-- A command with its operands, in the written order of R55. Operands are unsigned 8-bit fields (R50). -/
inductive Instr where
  /-- NOP (R93). -/
  | nop
  /-- TBL_INIT (R66). -/
  | tblInit
  /-- KEY_EXPAND len (R73): `len` is the key length in bytes, field A. -/
  | keyExpand (len : Byte)
  /-- ENC_BLOCK (R87). -/
  | encBlock
  /-- DEC_BLOCK (R88). -/
  | decBlock
  /-- RELEASE (R75). -/
  | release
  /-- LOAD_STATE (R76). -/
  | loadState
  /-- SUB_BYTES (R77). -/
  | subBytes
  /-- INV_SUB_BYTES (R78). -/
  | invSubBytes
  /-- SHIFT_ROWS (R79). -/
  | shiftRows
  /-- INV_SHIFT_ROWS (R80). -/
  | invShiftRows
  /-- MIX_COLUMNS (R81). -/
  | mixColumns
  /-- INV_MIX_COLUMNS (R82). -/
  | invMixColumns
  /-- ADD_ROUND_KEY round (R83): field A. -/
  | addRoundKey (round : Byte)
  /-- TBL_READ sel, index (R67): the written order is `sel, index`, the fields are A = index and B = sel (R55). -/
  | tblRead (sel index : Byte)
  /-- KS_READ index (R74): field A. -/
  | ksRead (index : Byte)
  /-- GF_MUL a, b (R68): A = a, B = b. -/
  | gfMul (a b : Byte)
  deriving DecidableEq, Repr

end Sys2Proof
end

