-- ==== Sys2Proof/WellFormed.lean ====
section
/-! DEFINITION. Well-formedness: of a command word (the field checks of R52, 30_encoding.md) and of a command as data. -/

namespace Sys2Proof

/-- How many operands a command's row takes: which of the fields A and B the row does not list as `0` (R51). -/
inductive OperandShape where
  | none
  | a
  | ab
  deriving DecidableEq, Repr

/-- The row of R51 with this opcode, by its operand shape; no row for an unassigned opcode (R53). -/
def opcodeShape (opc : Byte) : Option OperandShape :=
  if opc = 0x02 ∨ opc = 0x17 ∨ opc = 0x21 then some .a
  else if opc = 0x20 ∨ opc = 0x22 then some .ab
  else if opc.toNat ≤ 0x05 ∨ (0x10 ≤ opc.toNat ∧ opc.toNat ≤ 0x16) then some .none
  else Option.none

/-- "every field the row lists as `0` is zero" (R52), for the fields A and B. -/
def OperandShape.zerosHold (shape : OperandShape) (w : Word) : Bool :=
  match shape with
  | .none => w.extractLsb' 8 16 == 0#16
  | .a => w.extractLsb' 16 8 == 0#8
  | .ab => true

/-- A command word is well formed when RSV is zero, its opcode is assigned, and the fields its row lists as `0` are zero
(R52). The words that are not are exactly the illegal words of R53. -/
def wordWellFormed (w : Word) : Bool :=
  w.extractLsb' 24 8 == 0#8 &&
    match opcodeShape (w.extractLsb' 0 8) with
    | some shape => shape.zerosHold w
    | Option.none => false

/-- A command as data is well formed when its operands fit the 8-bit fields A and B. The operands are bytes by their type, so
every command is: R50 calls no operand value malformed, and an out-of-range one is an argument error at run time (R54). -/
def Instr.wellFormed : Instr → Bool
  | .nop | .tblInit | .encBlock | .decBlock | .release => true
  | .loadState | .subBytes | .invSubBytes | .shiftRows | .invShiftRows | .mixColumns | .invMixColumns => true
  | .keyExpand len => decide (len.toNat < 256)
  | .addRoundKey round => decide (round.toNat < 256)
  | .ksRead index => decide (index.toNat < 256)
  | .tblRead sel index => decide (sel.toNat < 256 ∧ index.toNat < 256)
  | .gfMul a b => decide (a.toNat < 256 ∧ b.toNat < 256)

end Sys2Proof
end

