-- ==== Sys2Proof/Decode.lean ====
section
/-! DEFINITION. The decoder of command words (R49 to R53, 30_encoding.md), total, rejecting by name, and after it the encoder. -/

namespace Sys2Proof

/-- OPC, bits 7:0 (R49). -/
def opcField (w : Word) : Byte := w.extractLsb' 0 8

/-- A, bits 15:8 (R49, R50). -/
def aField (w : Word) : Byte := w.extractLsb' 8 8

/-- B, bits 23:16 (R49, R50). -/
def bField (w : Word) : Byte := w.extractLsb' 16 8

/-- RSV, bits 31:24, "must be 0x00" (R49). -/
def rsvField (w : Word) : Byte := w.extractLsb' 24 8

/-- Why a word is illegal: the three classes of R53. -/
inductive IllegalWord where
  /-- "every word with `LCMD[31:24] != 0`" -/
  | reservedField
  /-- "every word whose OPC is not in the table of rule R51" -/
  | unassignedOpcode
  /-- "a non-zero A or B field the row lists as `0`" -/
  | unusedOperand
  deriving DecidableEq, Repr

/-- A row that takes no operand: A and B must be zero (R51, R52). -/
def rowNone (a b : Byte) (i : Instr) : Except IllegalWord Instr :=
  if a = 0 ∧ b = 0 then .ok i else .error .unusedOperand

/-- A row that takes A only: B must be zero (R51, R52). -/
def rowA (a b : Byte) (mk : Byte → Instr) : Except IllegalWord Instr :=
  if b = 0 then .ok (mk a) else .error .unusedOperand

/-- The row of R51 whose OPC is `opc`, given the fields A and B. -/
def decodeRow (opc a b : Byte) : Except IllegalWord Instr :=
  if opc = 0x00 then rowNone a b .nop
  else if opc = 0x01 then rowNone a b .tblInit
  else if opc = 0x02 then rowA a b .keyExpand
  else if opc = 0x03 then rowNone a b .encBlock
  else if opc = 0x04 then rowNone a b .decBlock
  else if opc = 0x05 then rowNone a b .release
  else if opc = 0x10 then rowNone a b .loadState
  else if opc = 0x11 then rowNone a b .subBytes
  else if opc = 0x12 then rowNone a b .invSubBytes
  else if opc = 0x13 then rowNone a b .shiftRows
  else if opc = 0x14 then rowNone a b .invShiftRows
  else if opc = 0x15 then rowNone a b .mixColumns
  else if opc = 0x16 then rowNone a b .invMixColumns
  else if opc = 0x17 then rowA a b .addRoundKey
  else if opc = 0x20 then .ok (.tblRead b a)
  else if opc = 0x21 then rowA a b .ksRead
  else if opc = 0x22 then .ok (.gfMul a b)
  else .error .unassignedOpcode

/-- Decode of a latched command word (R52). -/
def decode (w : Word) : Except IllegalWord Instr :=
  if rsvField w = 0 then decodeRow (opcField w) (aField w) (bField w) else .error .reservedField

/-- The command a word stands for, if it stands for one. -/
def decode? (w : Word) : Option Instr :=
  match decode w with
  | .ok i => some i
  | .error _ => none

/-- The assembled word `{0x00, B, A, OPC}` (R55). -/
def commandWord (b a opc : Byte) : Word := 0#8 ++ b ++ a ++ opc

/-- The encoder: the word of each row of R51 with its operands in the fields of R50. -/
def encode : Instr → Word
  | .nop => commandWord 0 0 0x00
  | .tblInit => commandWord 0 0 0x01
  | .keyExpand len => commandWord 0 len 0x02
  | .encBlock => commandWord 0 0 0x03
  | .decBlock => commandWord 0 0 0x04
  | .release => commandWord 0 0 0x05
  | .loadState => commandWord 0 0 0x10
  | .subBytes => commandWord 0 0 0x11
  | .invSubBytes => commandWord 0 0 0x12
  | .shiftRows => commandWord 0 0 0x13
  | .invShiftRows => commandWord 0 0 0x14
  | .mixColumns => commandWord 0 0 0x15
  | .invMixColumns => commandWord 0 0 0x16
  | .addRoundKey round => commandWord 0 round 0x17
  | .tblRead sel index => commandWord sel index 0x20
  | .ksRead index => commandWord 0 index 0x21
  | .gfMul a b => commandWord b a 0x22

/-- A number of at most 32 bits as a command word: the table's `nbits` low bits, the rest zero. A command is one 32-bit word
and is written to CMD whole (R49), so no byte order lies between the number and the decoder (log entry 15). -/
def tableWord (nbits w : Nat) : Word := BitVec.ofNat 32 (w % 2 ^ nbits)

/-- What the decoder reads from a word numbered as spec/opcode_table.json numbers it. Every command is one 32-bit word and
there is "no other length" (R49): a longer one is none (log entry 15). -/
def decodeTableWord (nbits w : Nat) : Option Instr :=
  if nbits ≤ 32 then decode? (tableWord nbits w) else none

end Sys2Proof
end

