-- ==== Sys2Proof/Config.lean ====
section
/-! DEFINITION. What the platform fixes, and the free values: constants with no body, of which nothing can be proved. -/

namespace Sys2Proof.Config

/-- The page number of the register window. `aes_base` is OPEN, "aligned to 256 bytes" (R9, D24, U15; log entry 3). The spec
gives no address width: an unbounded number is a DESIGN CHOICE (log entry 20). -/
opaque aesPage : Nat

/-- `aes_base`, the host address of the register window, a multiple of 256 (R9; log entry 3). -/
def aesBase : Nat := 256 * aesPage

/-- What the `n`-th undetermined read returns: a read of DOUT or RDATA while BUSY = 1 is "a value the model does not
determine (a draw, under no law)" (R42, U1; log entry 4). -/
opaque busyRead : Nat → Word

/-- A schedule word past the 60 words of the store. The checks of the commands bound every index (R14), so no state that
satisfies the invariants of R32 reads one (log entry 9). -/
opaque absentWord : Nat → Word

end Sys2Proof.Config
end

