-- ==== Sys2Proof/Machine/State.lean ====
section
/-! DEFINITION. The state of AES-CORE as plain data (10_state.md), the reasons a step can stop, and the state after reset (R115). -/

namespace Sys2Proof.Machine

/-- One table of 256 bytes (R17). -/
abbrev Table := Vector Byte 256

/-- The 16-byte state buffer or a 16-byte block; byte i is column i>>2, row i&3 (R12, R22). -/
abbrev Block := Vector Byte 16

/-- The table store T (R17). -/
@[ext] structure Tables where
  log : Table
  ilog : Table
  sbox : Table
  isbox : Table
  deriving DecidableEq, Repr

/-- The cipher context CTX (R19): NK = 0 and NR = 0 mean that the core holds no context. -/
@[ext] structure Context where
  w : Vector Word 60
  nk : BitVec 4
  nr : BitVec 4
  deriving DecidableEq, Repr

/-- PHASE (R30). -/
inductive Phase where
  | idle
  | busy
  deriving DecidableEq, Repr

/-- The error causes of R101, in the order of their codes. Success is the absence of one (log entry 8). -/
inductive CmdError where
  /-- code 1: KEY_EXPAND with a length outside 16, 24, 32 -/
  | invalidKeyLength
  /-- code 2: a command that reads T before TBL_INIT has completed -/
  | tablesNotReady
  /-- code 3: a command that reads CTX while KEY_VALID = 0 -/
  | noContext
  /-- code 4: an operand out of range -/
  | badArgument
  /-- code 5: the word matches no row of the opcode map -/
  | illegalCommand
  /-- code 6: "reserved; never raised" -/
  | allocationFailure
  deriving DecidableEq, Repr

/-- One host access to the bus: `MemRead(addr, width)` or `MemWrite(addr, width, value)` (R13, R34); `width` in bytes. The spec
gives no address width: an unbounded number is a DESIGN CHOICE (log entry 20). -/
inductive Access where
  | read (addr width : Nat)
  | write (addr width : Nat) (value : Word)
  deriving DecidableEq, Repr

/-- Who moves next: the host with one access, the core, or the platform's reset input (R16, R43, R115; log entries 1, 11). -/
inductive Turn where
  | host (a : Access)
  | core
  | reset
  deriving DecidableEq, Repr

/-- A register of the window (R24). -/
inductive WindowReg where
  | cmd
  | status
  | rdata
  | key (k : Fin 8)
  | din (k : Fin 4)
  | dout (k : Fin 4)
  | reserved
  deriving DecidableEq, Repr

/-- The state of the machine. STATUS, DOUT and the STATUS fields BUSY, KEY_VALID, NK and NR are views (R26, R28, R30; log
entry 7). The last four fields are the model's own, not the spec's. -/
structure State where
  /-- T (R17) -/
  tbl : Tables
  /-- CTX (R19) -/
  ctx : Context
  /-- ST (R22) -/
  st : Block
  /-- CMD: the last accepted command word (R24) -/
  cmd : Word
  /-- RDATA (R27) -/
  rdata : Word
  /-- KEY0..KEY7 (R25) -/
  key : Vector Word 8
  /-- DIN0..DIN3 (R29) -/
  din : Vector Word 4
  /-- STATUS.DONE (R26) -/
  done : Bool
  /-- STATUS.TBL_VALID (R26) -/
  tblValid : Bool
  /-- STATUS.ERR (R26, R101) -/
  err : Option CmdError
  /-- STATUS.OVR (R26) -/
  ovr : Bool
  /-- PHASE; STATUS.BUSY mirrors it (R30) -/
  phase : Phase
  /-- LCMD: the latched command (R30) -/
  lcmd : Word
  /-- LKEY: the snapshot of KEY (R30) -/
  lkey : Vector Word 8
  /-- LDIN: the snapshot of DIN (R30) -/
  ldin : Vector Word 4
  /-- RC: the iteration controller's round counter (R30) -/
  rc : Byte
  /-- RCON: the key expander's round constant (R30) -/
  rcon : Byte
  /-- the parameter `aes_base` (R9; log entry 3), a number without a width (DESIGN CHOICE, log entry 20) -/
  aesBase : Nat
  /-- the turns still to come (R43; log entry 1) -/
  agenda : List Turn
  /-- what the last host read returned (log entry 13) -/
  reply : Option Word
  /-- how many undetermined reads have been made (R42; log entry 4) -/
  draws : Nat
  deriving DecidableEq, Repr

/-- Why the machine stops with a fault. -/
inductive Fault where
  /-- Raised by a host turn whose address is not in the window of 256 bytes at `aes_base` (R33): the core has no register
  there and the platform decodes it (R48). SAFE: nothing is claimed of such an access (log entry 10). -/
  | outsideWindow
  deriving DecidableEq, Repr

/-- Why a step has no meaning. -/
inductive Refusal where
  /-- Raised only by an arm of `exec` that has no meaning yet; no arm is one. SAFE. -/
  | notModelled (mnemonic : String)
  /-- Raised by a host turn inside the window that is narrower or wider than 32 bits or not aligned: "refused: the model
  gives it no meaning and the host agent has no step" (R35, U2). SAFE (log entry 10). -/
  | unsupportedAccess
  deriving DecidableEq, Repr

/-- The outcome of a step of this machine. -/
abbrev Out := Host.Outcome State Fault Refusal

/-- The state right after reset (R115). T, LCMD, LKEY, LDIN, RC and RCON are unspecified there: zero is a DESIGN CHOICE
(log entries 5, 6). `aesBase` is the open constant of Config (log entry 3). -/
def State.reset : State where
  tbl :=
    { log := Vector.replicate 256 0, ilog := Vector.replicate 256 0
      sbox := Vector.replicate 256 0, isbox := Vector.replicate 256 0 }
  ctx := { w := Vector.replicate 60 0, nk := 0, nr := 0 }
  st := Vector.replicate 16 0
  cmd := 0
  rdata := 0
  key := Vector.replicate 8 0
  din := Vector.replicate 4 0
  done := false
  tblValid := false
  err := none
  ovr := false
  phase := .idle
  lcmd := 0
  lkey := Vector.replicate 8 0
  ldin := Vector.replicate 4 0
  rc := 0
  rcon := 0
  aesBase := Config.aesBase
  agenda := []
  reply := none
  draws := 0

end Sys2Proof.Machine
end

