-- ==== Sys2Proof/Machine/Bytes.lean ====
section
/-! DEFINITION. Byte order and indexing (R11, R12, R37): bytes of a word, words of a block, rows and columns of the state. -/

namespace Sys2Proof.Machine

/-- A vector given entry by entry. -/
def tab {α : Type} {n : Nat} (f : Fin n → α) : Vector α n := ⟨⟨List.ofFn f⟩, by simp⟩

/-- `byte_r(w) = w[31-8r : 24-8r]`: byte 0 is the most significant byte (R11). -/
def byteOf (w : Word) (r : Fin 4) : Byte := w.extractLsb' (24 - 8 * r.val) 8

/-- `word(b0,b1,b2,b3) = {b0,b1,b2,b3}` (R11). -/
def wordOf (b0 b1 b2 b3 : Byte) : Word := b0 ++ b1 ++ b2 ++ b3

/-- The row `i & 3` of byte index `i` (R12). -/
def rowOf (i : Fin 16) : Fin 4 := ⟨i.val % 4, by omega⟩

/-- The column `i >> 2` of byte index `i` (R12). -/
def colOf (i : Fin 16) : Fin 4 := ⟨i.val / 4, by omega⟩

/-- `S(r,c) = s[4*c + r]` (R12). -/
def cell (s : Block) (r c : Fin 4) : Byte := s[4 * c.val + r.val]

/-- The block whose row r, column c is `f r c` (R12). -/
def blockOf (f : Fin 4 → Fin 4 → Byte) : Block := tab fun i => f (rowOf i) (colOf i)

/-- The block held in four words: byte `4k+j` is byte j of word k (R29, R37, R76). -/
def blockOfWords (v : Vector Word 4) : Block := blockOf fun r c => byteOf v[c] r

/-- Column k of the state as a word, `word(s[4k], s[4k+1], s[4k+2], s[4k+3])` (R28). -/
def columnWord (s : Block) (k : Fin 4) : Word := wordOf (cell s 0 k) (cell s 1 k) (cell s 2 k) (cell s 3 k)

end Sys2Proof.Machine
end

