-- ==== Sys2Proof/Machine/Galois.lean ====
section
/-! DEFINITION. GF(2^8) arithmetic and the table generator (R58 to R64, 40_gf_tables.md). -/

namespace Sys2Proof.Machine

/-- The loop of R58. `y` has 8 bits and loses one at each turn, so 8 turns of fuel reach `y = 0`. -/
def gfMulLoop : (fuel : Nat) → (acc : Byte) → (x : BitVec 9) → (y : Byte) → Byte
  | 0, acc, _, _ => acc
  | fuel + 1, acc, x, y =>
    if y = 0 then acc
    else
      let acc' := if y.getLsbD 0 then acc ^^^ x.setWidth 8 else acc
      let shifted := x <<< 1
      let x' := if shifted.getLsbD 8 then shifted ^^^ 0x11B#9 else shifted
      gfMulLoop fuel acc' x' (y >>> 1)

/-- `gf_mul(a, b)`: shift-and-reduce multiplication modulo 0x11B (R58). -/
def gfMul (a b : Byte) : Byte := gfMulLoop 8 0x00 (a.setWidth 9) b

/-- Read one table entry (R13). -/
def tableGet (t : Table) (x : Byte) : Byte := t[x.toNat]

/-- Write one table entry. -/
def tablePut (t : Table) (x v : Byte) : Table := t.set x.toNat v

/-- The loop of R60, `n` turns from exponent `i` with generator power `g`. -/
def logLoop : (n : Nat) → (i g : Byte) → Tables → Tables
  | 0, _, _, t => t
  | n + 1, i, g, t =>
    logLoop n (i + 1) (gfMul g 0x03) { t with log := tablePut t.log g i, ilog := tablePut t.ilog i g }

/-- `inv(a)` as the tables give it (R61): `inv(1)` reads the unwritten `ilog[255]`. -/
def invOf (t : Tables) (a : Byte) : Byte :=
  if a = 0 then 0x00 else tableGet t.ilog (255 - tableGet t.log a)

/-- The byte whose bit b is `f b`. -/
def byteOfBits (f : Nat → Bool) : Byte :=
  (List.range 8).foldl (fun acc b => if f b then acc ||| (1#8 <<< b) else acc) 0

/-- The affine transform (R62). -/
def affine (y : Byte) : Byte :=
  byteOfBits fun b =>
    y.getLsbD b ^^ y.getLsbD ((b + 4) % 8) ^^ y.getLsbD ((b + 5) % 8) ^^ y.getLsbD ((b + 6) % 8) ^^
      y.getLsbD ((b + 7) % 8) ^^ (0x63#8).getLsbD b

/-- The loop of R63, `n` turns ascending from `a`: forward box and, in the same loop, its point-inverse (D14). -/
def boxLoop : (n : Nat) → (a : Byte) → Tables → Tables
  | 0, _, t => t
  | n + 1, a, t =>
    boxLoop n (a + 1)
      { t with sbox := tablePut t.sbox a (affine (invOf t a)), isbox := tablePut t.isbox (affine (invOf t a)) a }

/-- The hand patch (R64). -/
def patch (t : Tables) : Tables :=
  { t with sbox := tablePut t.sbox 0x01 0x7C, isbox := tablePut (tablePut t.isbox 0x7C 0x01) 0x63 0x00 }

/-- The four tables cleared to 0x00, as TBL_INIT begins (R66, D14). -/
def clearedTables : Tables :=
  { log := Vector.replicate 256 0, ilog := Vector.replicate 256 0
    sbox := Vector.replicate 256 0, isbox := Vector.replicate 256 0 }

/-- The tables after the generic construction and before the patch (R60, R63). -/
def genericTables : Tables := boxLoop 256 0x00 (logLoop 255 0x00 0x01 clearedTables)

/-- The tables TBL_INIT leaves (R60, R63, R64, R66). -/
def builtTables : Tables := patch genericTables

end Sys2Proof.Machine
end

