-- ==== Sys2Proof/Machine/Flags.lean ====
section
/-! DEFINITION. STATUS: its fields and the word a read returns (R26), and the error codes (R101). -/

namespace Sys2Proof.Machine

/-- The number of an error cause (R101). -/
def CmdError.code : CmdError → BitVec 4
  | .invalidKeyLength => 1
  | .tablesNotReady => 2
  | .noContext => 3
  | .badArgument => 4
  | .illegalCommand => 5
  | .allocationFailure => 6

/-- STATUS.ERR: the code of the last completed command, 0 = success (R26, R101). -/
def errCode : Option CmdError → BitVec 4
  | none => 0
  | some e => e.code

/-- STATUS.BUSY, which PHASE mirrors (R26, R30). -/
def State.busy (s : State) : Bool :=
  match s.phase with
  | .idle => false
  | .busy => true

/-- STATUS.KEY_VALID, which "equals (CTX.NK != 0)" (R26). -/
def State.keyValid (s : State) : Bool := s.ctx.nk != 0

/-- The STATUS word (R26); bits 11:9 and 31:20 are reserved and read 0. -/
def State.status (s : State) : Word :=
  0#12 ++ s.ctx.nr ++ s.ctx.nk ++ 0#3 ++ BitVec.ofBool s.ovr ++ errCode s.err ++ BitVec.ofBool s.keyValid ++
    BitVec.ofBool s.tblValid ++ BitVec.ofBool s.done ++ BitVec.ofBool s.busy

end Sys2Proof.Machine
end

