-- ==== Sys2Proof/Machine/Operands.lean ====
section
/-! DEFINITION. What the operand fields A and B mean to a command, and which of their values it takes (R50, R54, R69). -/

namespace Sys2Proof.Machine

/-- `len`, KEY_EXPAND's A: the key word count `Nk = n / 4` of a valid key length, none for any other (R69). -/
def keyWords (len : Byte) : Option (BitVec 4) :=
  if len = 16 then some 4 else if len = 24 then some 6 else if len = 32 then some 8 else none

/-- `round`, ADD_ROUND_KEY's A: the round-key index 0..NR (R50, R83). -/
def roundInRange (round : Byte) (nr : BitVec 4) : Bool := decide (round.toNat ≤ nr.toNat)

/-- `index`, KS_READ's A: the schedule word index 0..4*(NR+1)-1 (R50, R74). -/
def indexInRange (index : Byte) (nr : BitVec 4) : Bool := decide (index.toNat < 4 * (nr.toNat + 1))

/-- `sel`, TBL_READ's B: 0 = log, 1 = ilog, 2 = sbox, 3 = isbox, none above (R50, R67). -/
def selectedTable (sel : Byte) (t : Tables) : Option Table :=
  if sel = 0 then some t.log
  else if sel = 1 then some t.ilog
  else if sel = 2 then some t.sbox
  else if sel = 3 then some t.isbox
  else none

/-- The offset of a host address in the window: `A - aes_base`, for `aes_base <= A < aes_base + 256` (R33). -/
def windowOffset (base addr : Nat) : Option Nat :=
  if base ≤ addr ∧ addr < base + 256 then some (addr - base) else none

/-- Whether the window takes an access of `width` bytes at offset `off`: only aligned 32-bit accesses (R34, R35). -/
def accessSupported (off width : Nat) : Bool := decide (width = 4 ∧ off % 4 = 0)

/-- The register at a word-aligned offset of the window (R24). -/
def registerAt (off : Nat) : WindowReg :=
  if off = 0x00 then .cmd
  else if off = 0x04 then .status
  else if off = 0x08 then .rdata
  else if off < 0x10 then .reserved
  else if h : off < 0x30 then .key ⟨(off - 0x10) / 4, by omega⟩
  else if h : off < 0x40 then .din ⟨(off - 0x30) / 4, by omega⟩
  else if h : off < 0x50 then .dout ⟨(off - 0x40) / 4, by omega⟩
  else .reserved

end Sys2Proof.Machine
end

