-- ==== Sys2Proof/Machine/Ops.lean ====
section
/-! DEFINITION. The named operations of the machine: completing a command, with an error or without; the checks a command makes;
accepting a command; the schedule store; reading and writing the register window; the host's turn and the reset input. -/

namespace Sys2Proof.Machine

/-! ### Completion and errors (R85, R100 to R104) -/

/-- Complete the command in flight, with an error cause or with none: ERR, BUSY, DONE and PHASE are written and nothing else
(R85, R104). This is all that an error does: "nothing is trapped, vectored or saved" (R100). -/
def State.complete (e : Option CmdError) (s : State) : State :=
  { s with err := e, done := true, phase := .idle }

/-- `raise CmdError(e)`: abort the command and leave every piece of state but STATUS unchanged (R13, R104). -/
def raise (e : CmdError) (s : State) : Out := .next (s.complete (some e))

/-- End a command that succeeded: ERR = 0 (R85). -/
def finish (s : State) : Out := .next (s.complete none)

/-- `if STATUS.TBL_VALID = 0: raise CmdError(TablesNotReady)` (R101, R103). -/
def needTables (s : State) (go : Out) : Out := if s.tblValid then go else raise .tablesNotReady s

/-- `if STATUS.KEY_VALID = 0: raise CmdError(NoContext)` (R101, R103). -/
def needContext (s : State) (go : Out) : Out := if s.keyValid then go else raise .noContext s

/-- Fail with BadArgument unless the operand is in range (R54, R101). -/
def needArgument (inRange : Bool) (s : State) (go : Out) : Out := if inRange then go else raise .badArgument s

/-! ### Acceptance (R38, R39) -/

/-- Accept the command word `v` (R38). -/
def State.accept (v : Word) (s : State) : State :=
  { s with
    lcmd := v, lkey := s.key, ldin := s.din, cmd := v
    done := false, err := none, ovr := false, phase := .busy }

/-- A host write of `v` to CMD: accepted while idle (R38); dropped while busy, setting OVR and nothing else (R39). -/
def State.issue (v : Word) (s : State) : State :=
  match s.phase with
  | .idle => s.accept v
  | .busy => { s with ovr := true }

/-! ### The schedule store (R19, R74) -/

/-- `CTX.W[i]`. Past the 60 words it is a free value; the range checks keep every index within them (R14; log entry 9). -/
def scheduleWord (w : Vector Word 60) (i : Nat) : Word := if h : i < 60 then w[i] else Config.absentWord i

/-- `W[i] <- v` within the 60 words of the store. -/
def scheduleSet (w : Vector Word 60) (i : Nat) (v : Word) : Vector Word 60 := w.setIfInBounds i v

/-! ### The register window (R24, R36 to R42) -/

/-- Whether a read of this register is undetermined now: DOUT or RDATA while BUSY = 1 (R42). -/
def readIsDrawn (r : WindowReg) (s : State) : Bool :=
  match r with
  | .rdata | .dout _ => s.busy
  | .cmd | .status | .key _ | .din _ | .reserved => false

/-- The value a read of the window returns (R24, R28, R36, R41, R42). -/
def readRegister (r : WindowReg) (s : State) : Word :=
  if readIsDrawn r s then Config.busyRead s.draws
  else
    match r with
    | .cmd => s.cmd
    | .status => s.status
    | .rdata => s.rdata
    | .key k => s.key[k]
    | .din k => s.din[k]
    | .dout k => columnWord s.st k
    | .reserved => 0

/-- A host read: no effect on the core (R36); the model notes the value returned and counts the draw. -/
def hostRead (r : WindowReg) (s : State) : State :=
  { s with reply := some (readRegister r s), draws := if readIsDrawn r s then s.draws + 1 else s.draws }

/-- A host write of `v` to a register of the window (R36, R38, R39, R40). -/
def hostWrite (r : WindowReg) (v : Word) (s : State) : State :=
  match r with
  | .cmd => s.issue v
  | .key k => { s with key := s.key.set k v }
  | .din k => { s with din := s.din.set k v }
  | .status | .rdata | .dout _ | .reserved => s

/-- The host's turn: one access to the window (R33, R34). An address outside the window faults, an unsupported access inside
it is refused (R35; log entry 10). -/
def hostTurn (a : Access) (s : State) : Out :=
  match a with
  | .read addr width =>
    match windowOffset s.aesBase addr with
    | none => .fault .outsideWindow
    | some off => if accessSupported off width then .next (hostRead (registerAt off) s) else .refused .unsupportedAccess
  | .write addr width v =>
    match windowOffset s.aesBase addr with
    | none => .fault .outsideWindow
    | some off => if accessSupported off width then .next (hostWrite (registerAt off) v s) else .refused .unsupportedAccess

/-! ### The reset input (R115) -/

/-- The platform's reset input, asserted and released: every register at its reset value, a command in flight abandoned (R115).
The window's place, the turns still to come and the model's record of reads are not the core's to reset (log entry 11). -/
def resetTurn (s : State) : State :=
  { State.reset with aesBase := s.aesBase, agenda := s.agenda, reply := s.reply, draws := s.draws }

end Sys2Proof.Machine
end

