-- ==== Sys2Proof/Machine/Round.lean ====
section
/-! DEFINITION. The round transformation engine: each primitive as a function on a block, and the command that applies it to ST
(42_round_engine.md). Every primitive reads the whole old state and writes the whole new one. -/

namespace Sys2Proof.Machine

/-- `SubBytes(s)[i] = T.sbox[s[i]]` (R77). -/
def subBytes (t : Tables) (s : Block) : Block := tab fun i => tableGet t.sbox s[i]

/-- `InvSubBytes(s)[i] = T.isbox[s[i]]` (R78). -/
def invSubBytes (t : Tables) (s : Block) : Block := tab fun i => tableGet t.isbox s[i]

/-- `S'(r,c) = S(r, (c + r) mod 4)` (R79). -/
def shiftRows (s : Block) : Block := blockOf fun r c => cell s r (c + r)

/-- `S'(r,c) = S(r, (c - r) mod 4)` (R80). -/
def invShiftRows (s : Block) : Block := blockOf fun r c => cell s r (c - r)

/-- `S'(r,c) = XOR over j in 0..3 of gf_mul(M[r][j], S(j,c))` (R81, R82). Both matrices are "rotating" (R82): row r is row 0
turned right by r places, so `M[r][j]` is entry `(j - r) mod 4` of row 0, and row 0, `top`, gives the matrix. -/
def mixWith (top : Vector Byte 4) (s : Block) : Block :=
  blockOf fun r c =>
    gfMul top[0 - r] (cell s 0 c) ^^^ gfMul top[1 - r] (cell s 1 c) ^^^ gfMul top[2 - r] (cell s 2 c) ^^^
      gfMul top[3 - r] (cell s 3 c)

/-- MixColumns, by row 0 of the fixed MDS matrix (R81). -/
def mixColumns (s : Block) : Block := mixWith #v[2, 3, 1, 1] s

/-- InvMixColumns, by row 0 of the inverse matrix (R82). -/
def invMixColumns (s : Block) : Block := mixWith #v[14, 11, 13, 9] s

/-- `S'(row, c) = S(row, c) ^ byte_row(CTX.W[4*round + c])` (R83). -/
def addRoundKey (w : Vector Word 60) (round : Nat) (s : Block) : Block :=
  blockOf fun r c => cell s r c ^^^ byteOf (scheduleWord w (4 * round + c.val)) r

/-- LOAD_STATE (R76). -/
def execLoadState (s : State) : Out := finish { s with st := blockOfWords s.ldin }

/-- SUB_BYTES (R77). -/
def execSubBytes (s : State) : Out := needTables s <| finish { s with st := subBytes s.tbl s.st }

/-- INV_SUB_BYTES (R78). -/
def execInvSubBytes (s : State) : Out := needTables s <| finish { s with st := invSubBytes s.tbl s.st }

/-- SHIFT_ROWS (R79). -/
def execShiftRows (s : State) : Out := finish { s with st := shiftRows s.st }

/-- INV_SHIFT_ROWS (R80). -/
def execInvShiftRows (s : State) : Out := finish { s with st := invShiftRows s.st }

/-- MIX_COLUMNS (R81): uses `gf_mul`, not the tables. -/
def execMixColumns (s : State) : Out := finish { s with st := mixColumns s.st }

/-- INV_MIX_COLUMNS (R82). -/
def execInvMixColumns (s : State) : Out := finish { s with st := invMixColumns s.st }

/-- ADD_ROUND_KEY round (R83). -/
def execAddRoundKey (round : Byte) (s : State) : Out :=
  needContext s <|
    needArgument (roundInRange round s.ctx.nr) s <|
      finish { s with st := addRoundKey s.ctx.w round.toNat s.st }

end Sys2Proof.Machine
end

