-- ==== Sys2Proof/Machine/Cipher.lean ====
section
/-! DEFINITION. The iteration controller and its commands: ENC_BLOCK, DEC_BLOCK, NOP (43_cipher_context.md). -/

namespace Sys2Proof.Machine

/-- One middle round of encryption, with round key `rc` (R87). -/
def encRound (t : Tables) (w : Vector Word 60) (rc : Nat) (s : Block) : Block :=
  addRoundKey w rc (mixColumns (shiftRows (subBytes t s)))

/-- `n` middle rounds of encryption, RC ascending from `rc` (R87). -/
def encRounds (t : Tables) (w : Vector Word 60) : (n rc : Nat) → Block → Block
  | 0, _, s => s
  | n + 1, rc, s => encRounds t w n (rc + 1) (encRound t w rc s)

/-- The Encrypt sequence on a block: round key 0, rounds 1..NR-1, the final round without MixColumns (R87). -/
def encipher (t : Tables) (w : Vector Word 60) (nr : Nat) (block : Block) : Block :=
  addRoundKey w nr (shiftRows (subBytes t (encRounds t w (nr - 1) 1 (addRoundKey w 0 block))))

/-- One middle round of decryption, with round key `rc` (R88). -/
def decRound (t : Tables) (w : Vector Word 60) (rc : Nat) (s : Block) : Block :=
  invMixColumns (addRoundKey w rc (invSubBytes t (invShiftRows s)))

/-- Middle rounds of decryption, RC descending from `rc` to 1 (R88). -/
def decRounds (t : Tables) (w : Vector Word 60) : (rc : Nat) → Block → Block
  | 0, s => s
  | rc + 1, s => decRounds t w rc (decRound t w (rc + 1) s)

/-- The Decrypt sequence on a block: round key NR, rounds NR-1..1, the final step (R88). -/
def decipher (t : Tables) (w : Vector Word 60) (nr : Nat) (block : Block) : Block :=
  addRoundKey w 0 (invSubBytes t (invShiftRows (decRounds t w (nr - 1) (addRoundKey w nr block))))

/-- ENC_BLOCK (R87): RC ends at NR. -/
def execEncBlock (s : State) : Out :=
  needTables s <|
    needContext s <|
      finish { s with st := encipher s.tbl s.ctx.w s.ctx.nr.toNat (blockOfWords s.ldin), rc := s.ctx.nr.setWidth 8 }

/-- DEC_BLOCK (R88): RC ends at 0. -/
def execDecBlock (s : State) : Out :=
  needTables s <|
    needContext s <|
      finish { s with st := decipher s.tbl s.ctx.w s.ctx.nr.toNat (blockOfWords s.ldin), rc := 0 }

/-- NOP (R93): completes with no effect. -/
def execNop (s : State) : Out := finish s

end Sys2Proof.Machine
end

