-- ==== Sys2Proof/Machine/KeySchedule.lean ====
section
/-! DEFINITION. The key schedule expander and its commands: KEY_EXPAND, KS_READ, RELEASE (41_key_schedule.md). -/

namespace Sys2Proof.Machine

/-- RotWord: one byte towards byte 0 (R70). -/
def rotWord (w : Word) : Word := wordOf (byteOf w 1) (byteOf w 2) (byteOf w 3) (byteOf w 0)

/-- SubWord: the forward S-box on each byte (R70). -/
def subWord (t : Tables) (w : Word) : Word :=
  wordOf (tableGet t.sbox (byteOf w 0)) (tableGet t.sbox (byteOf w 1)) (tableGet t.sbox (byteOf w 2))
    (tableGet t.sbox (byteOf w 3))

/-- The round constant as a word, `{RCON, 0x00, 0x00, 0x00}`: byte 0 (R71). -/
def rconWord (rcon : Byte) : Word := wordOf rcon 0 0 0

/-- Steps 1 to 3 of R72 for word `i`, from the word before it: `temp`, and RCON after it. -/
def expandTemp (t : Tables) (nk i : Nat) (prev : Word) (rcon : Byte) : Word × Byte :=
  if i % nk = 0 then (subWord t (rotWord prev) ^^^ rconWord rcon, gfMul rcon 0x02)
  else if 6 < nk ∧ i % nk = 4 then (subWord t prev, rcon)
  else (prev, rcon)

/-- The loop of R72, `n` turns from word `i`: the store and RCON after them. -/
def expandLoop (t : Tables) (nk : Nat) :
    (n i : Nat) → Vector Word 60 → (rcon : Byte) → Vector Word 60 × Byte
  | 0, _, w, rcon => (w, rcon)
  | n + 1, i, w, rcon =>
    let temp := expandTemp t nk i (scheduleWord w (i - 1)) rcon
    expandLoop t nk n (i + 1) (scheduleSet w i (scheduleWord w (i - nk) ^^^ temp.1)) temp.2

/-- The store with the first `nk` key words and zeros (R72, R73: the words past the schedule are zeroed). -/
def keyStore (nk : Nat) (key : Vector Word 8) : Vector Word 60 :=
  tab fun i => if h : i.val < 8 then (if i.val < nk then key[i.val] else 0) else 0

/-- `expand(K, Nk, Nr)` with `Nr = Nk + 6` (R69, R72), RCON starting at 0x01 (R71): the store and the last RCON. -/
def expand (t : Tables) (key : Vector Word 8) (nk : Nat) : Vector Word 60 × Byte :=
  expandLoop t nk (4 * (nk + 6 + 1) - nk) nk (keyStore nk key) 0x01

/-- KEY_EXPAND len (R73). -/
def execKeyExpand (len : Byte) (s : State) : Out :=
  needTables s <|
    match keyWords len with
    | none => raise .invalidKeyLength s
    | some nk =>
      finish
        { s with
          ctx := { w := (expand s.tbl s.lkey nk.toNat).1, nk := nk, nr := nk + 6 }
          rcon := (expand s.tbl s.lkey nk.toNat).2 }

/-- KS_READ index (R74). -/
def execKsRead (index : Byte) (s : State) : Out :=
  needContext s <|
    needArgument (indexInRange index s.ctx.nr) s <|
      finish { s with rdata := scheduleWord s.ctx.w index.toNat }

/-- RELEASE (R75). -/
def execRelease (s : State) : Out :=
  finish
    { s with
      ctx := { w := Vector.replicate 60 0, nk := 0, nr := 0 }
      st := Vector.replicate 16 0
      rdata := 0 }

end Sys2Proof.Machine
end

