-- ==== Sys2Proof/Machine/Tables.lean ====
section
/-! DEFINITION. The commands of the table generator: TBL_INIT, TBL_READ, GF_MUL (40_gf_tables.md section 4). -/

namespace Sys2Proof.Machine

/-- TBL_INIT (R66): once the tables are built, a repeat changes nothing and succeeds. -/
def execTblInit (s : State) : Out :=
  if s.tblValid then finish s else finish { s with tbl := builtTables, tblValid := true }

/-- TBL_READ sel, index (R67). -/
def execTblRead (sel index : Byte) (s : State) : Out :=
  needTables s <|
    match selectedTable sel s.tbl with
    | none => raise .badArgument s
    | some t => finish { s with rdata := (tableGet t index).setWidth 32 }

/-- GF_MUL a, b (R68): needs neither tables nor a context. -/
def execGfMul (a b : Byte) (s : State) : Out := finish { s with rdata := (gfMul a b).setWidth 32 }

end Sys2Proof.Machine
end

