-- ==== Sys2Proof/Machine/Dispatch.lean ====
section
/-! DEFINITION. One arm per command: the meaning of each, its pseudocode and its completion together (R85). -/

namespace Sys2Proof.Machine

def exec (i : Instr) (s : State) : Host.Outcome State Fault Refusal :=
  match i with
  | .nop => Sys2Proof.Machine.execNop s
  | .tblInit => Sys2Proof.Machine.execTblInit s
  | .keyExpand len => Sys2Proof.Machine.execKeyExpand len s
  | .encBlock => Sys2Proof.Machine.execEncBlock s
  | .decBlock => Sys2Proof.Machine.execDecBlock s
  | .release => Sys2Proof.Machine.execRelease s
  | .loadState => Sys2Proof.Machine.execLoadState s
  | .subBytes => Sys2Proof.Machine.execSubBytes s
  | .invSubBytes => Sys2Proof.Machine.execInvSubBytes s
  | .shiftRows => Sys2Proof.Machine.execShiftRows s
  | .invShiftRows => Sys2Proof.Machine.execInvShiftRows s
  | .mixColumns => Sys2Proof.Machine.execMixColumns s
  | .invMixColumns => Sys2Proof.Machine.execInvMixColumns s
  | .addRoundKey round => Sys2Proof.Machine.execAddRoundKey round s
  | .tblRead sel index => Sys2Proof.Machine.execTblRead sel index s
  | .ksRead index => Sys2Proof.Machine.execKsRead index s
  | .gfMul a b => Sys2Proof.Machine.execGfMul a b s

end Sys2Proof.Machine
end

