-- ==== Sys2Proof/Machine/CoreTurn.lean ====
section
/-! DEFINITION. The core's turn: decode the latched command, perform it, complete it (R85), and how a command is placed for it. -/

namespace Sys2Proof.Machine

/-- The core step on a latched word: a word that matches no row completes with IllegalCommand (R85, R52). -/
def perform (s : State) : Out :=
  match decode s.lcmd with
  | .ok i => exec i s
  | .error _ => raise .illegalCommand s

/-- The core's turn: "The core has a step only when PHASE = BUSY" (R85); while idle it holds all state (R114; log entry 2). -/
def coreTurn (s : State) : Out :=
  match s.phase with
  | .busy => perform s
  | .idle => .next s

/-- A command word accepted (R38) with the core's turn next: what a host write to CMD and a latency of zero leave (log entry 12). -/
def placeCommand (v : Word) (s : State) : State := { s.accept v with agenda := .core :: s.agenda }

end Sys2Proof.Machine
end

