-- ==== Sys2Proof/Machine/Step.lean ====
section
/-! DEFINITION. The step: the next turn of the agenda is taken (R43; log entries 1, 2). -/

namespace Sys2Proof.Machine

/-- One step. The next turn of the agenda is the host's, the core's or the reset input's; with an empty agenda the turn is the
core's, so that an accepted command always completes (R108, R121). -/
def step (s : State) : Host.Outcome State Fault Refusal :=
  match s.agenda with
  | [] => coreTurn s
  | .host a :: rest => hostTurn a { s with agenda := rest }
  | .core :: rest => coreTurn { s with agenda := rest }
  | .reset :: rest => .next (resetTurn { s with agenda := rest })

/-- `s` with the command word accepted and the core's turn next, so that the next step performs exactly it (log entry 12). -/
def State.withFetchWord (s : State) (nbits w : Nat) : State := placeCommand (tableWord nbits w) s

end Sys2Proof.Machine
end

