-- ==== Sys2Proof/Safety.lean ====
section
/-! DEFINITION. The terms the statements use: the invariants of R32 and the model's own, which commands read what (R101), the
opcode map as rows of match and mask (R52), key schedules (R72), host step sequences (R57) and sequences of turns. No meaning uses
anything of this file. -/

namespace Sys2Proof

/-! ### Which commands check what (R101, R103) -/

/-- The commands that read T: code 2's "raised by" column (R101). -/
def Instr.readsTables : Instr → Bool
  | .keyExpand _ | .subBytes | .invSubBytes | .encBlock | .decBlock | .tblRead _ _ => true
  | .nop | .tblInit | .release | .loadState | .shiftRows | .invShiftRows | .mixColumns | .invMixColumns => false
  | .addRoundKey _ | .ksRead _ | .gfMul _ _ => false

/-- The commands that read CTX: code 3's "raised by" column (R101). -/
def Instr.readsContext : Instr → Bool
  | .addRoundKey _ | .ksRead _ | .encBlock | .decBlock => true
  | .nop | .tblInit | .release | .loadState | .shiftRows | .invShiftRows | .mixColumns | .invMixColumns => false
  | .keyExpand _ | .subBytes | .invSubBytes | .tblRead _ _ | .gfMul _ _ => false

/-- KEY_EXPAND with a length outside 16, 24, 32 (R101, code 1). -/
def Instr.lengthInvalid : Instr → Prop
  | .keyExpand len => len ≠ 16 ∧ len ≠ 24 ∧ len ≠ 32
  | _ => False

/-- An operand out of range for a context of `nr` rounds (R101, code 4). -/
def Instr.operandOutOfRange (nr : Nat) : Instr → Prop
  | .addRoundKey round => round.toNat > nr
  | .ksRead index => index.toNat ≥ 4 * (nr + 1)
  | .tblRead sel _ => sel.toNat > 3
  | _ => False

/-! ### The opcode map as match and mask (R51, R52, spec/opcode_table.json) -/

/-- A row of the opcode map: the command it stands for, given the fields A and B. -/
structure OpcodeRow where
  mnemonic : String
  matchWord : Word
  mask : Word
  build : Byte → Byte → Instr

/-- Whether a word matches the row: `(LCMD & mask) = match` (R52). -/
def OpcodeRow.hits (row : OpcodeRow) (w : Word) : Prop := w &&& row.mask = row.matchWord

/-- The 17 rows of spec/opcode_table.json. -/
def opcodeRows : List OpcodeRow :=
  [ ⟨"NOP", 0x00000000, 0xFFFFFFFF, fun _ _ => .nop⟩,
    ⟨"TBL_INIT", 0x00000001, 0xFFFFFFFF, fun _ _ => .tblInit⟩,
    ⟨"KEY_EXPAND", 0x00000002, 0xFFFF00FF, fun a _ => .keyExpand a⟩,
    ⟨"ENC_BLOCK", 0x00000003, 0xFFFFFFFF, fun _ _ => .encBlock⟩,
    ⟨"DEC_BLOCK", 0x00000004, 0xFFFFFFFF, fun _ _ => .decBlock⟩,
    ⟨"RELEASE", 0x00000005, 0xFFFFFFFF, fun _ _ => .release⟩,
    ⟨"LOAD_STATE", 0x00000010, 0xFFFFFFFF, fun _ _ => .loadState⟩,
    ⟨"SUB_BYTES", 0x00000011, 0xFFFFFFFF, fun _ _ => .subBytes⟩,
    ⟨"INV_SUB_BYTES", 0x00000012, 0xFFFFFFFF, fun _ _ => .invSubBytes⟩,
    ⟨"SHIFT_ROWS", 0x00000013, 0xFFFFFFFF, fun _ _ => .shiftRows⟩,
    ⟨"INV_SHIFT_ROWS", 0x00000014, 0xFFFFFFFF, fun _ _ => .invShiftRows⟩,
    ⟨"MIX_COLUMNS", 0x00000015, 0xFFFFFFFF, fun _ _ => .mixColumns⟩,
    ⟨"INV_MIX_COLUMNS", 0x00000016, 0xFFFFFFFF, fun _ _ => .invMixColumns⟩,
    ⟨"ADD_ROUND_KEY", 0x00000017, 0xFFFF00FF, fun a _ => .addRoundKey a⟩,
    ⟨"TBL_READ", 0x00000020, 0xFF0000FF, fun a b => .tblRead b a⟩,
    ⟨"KS_READ", 0x00000021, 0xFFFF00FF, fun a _ => .ksRead a⟩,
    ⟨"GF_MUL", 0x00000022, 0xFF0000FF, fun a b => .gfMul a b⟩ ]

end Sys2Proof

namespace Sys2Proof.Machine

/-! ### The encoding of a command, as its rule gives it -/

/-- With a latched word of opcode `opc`, the core performs `i` if A = B = RSV = 0, and else completes with IllegalCommand and no
other effect (R51, R53). -/
def EncodesAlone (opc : Byte) (i : Instr) : Prop :=
  ∀ s : State, s.lcmd.extractLsb' 0 8 = opc →
    (s.lcmd.extractLsb' 8 24 = 0 → decode s.lcmd = .ok i ∧ perform s = exec i s) ∧
    (s.lcmd.extractLsb' 8 24 ≠ 0 → perform s = .next { s with err := some .illegalCommand, done := true, phase := .idle })

/-- With a latched word of opcode `opc`, the core performs `mk A` if B = RSV = 0, and else completes with IllegalCommand and no
other effect (R51, R53). -/
def EncodesWithA (opc : Byte) (mk : Byte → Instr) : Prop :=
  ∀ s : State, s.lcmd.extractLsb' 0 8 = opc →
    (s.lcmd.extractLsb' 16 16 = 0 →
      decode s.lcmd = .ok (mk (s.lcmd.extractLsb' 8 8)) ∧ perform s = exec (mk (s.lcmd.extractLsb' 8 8)) s) ∧
    (s.lcmd.extractLsb' 16 16 ≠ 0 → perform s = .next { s with err := some .illegalCommand, done := true, phase := .idle })

/-- With a latched word of opcode `opc`, the core performs `mk A B` if RSV = 0, and else completes with IllegalCommand and no
other effect (R51, R53). -/
def EncodesWithAB (opc : Byte) (mk : Byte → Byte → Instr) : Prop :=
  ∀ s : State, s.lcmd.extractLsb' 0 8 = opc →
    (s.lcmd.extractLsb' 24 8 = 0 →
      decode s.lcmd = .ok (mk (s.lcmd.extractLsb' 8 8) (s.lcmd.extractLsb' 16 8)) ∧
      perform s = exec (mk (s.lcmd.extractLsb' 8 8) (s.lcmd.extractLsb' 16 8)) s) ∧
    (s.lcmd.extractLsb' 24 8 ≠ 0 → perform s = .next { s with err := some .illegalCommand, done := true, phase := .idle })

/-! ### Invariants -/

/-- The invariants I1 to I6 of R32 (10_state.md). -/
structure State.Inv (s : State) : Prop where
  /-- (I1) -/
  keyValid_iff : s.keyValid = true ↔ s.ctx.nk = 4 ∨ s.ctx.nk = 6 ∨ s.ctx.nk = 8
  /-- (I2) -/
  rounds : (s.keyValid = true → s.ctx.nr = s.ctx.nk + 6) ∧ (s.keyValid = false → s.ctx.nr = 0)
  /-- (I3) -/
  tablesFirst : s.keyValid = true → s.tblValid = true
  /-- (I4) -/
  boxes : s.tblValid = true →
    s.tbl.sbox = printedSbox ∧ ∀ x : Byte, tableGet s.tbl.isbox (tableGet s.tbl.sbox x) = x
  /-- (I5) -/
  busyIsPhase : s.status.getLsbD 0 = true ↔ s.phase = .busy
  /-- (I6) -/
  doneIsIdle : s.status.getLsbD 1 = true → s.status.getLsbD 0 = false

/-- What else every turn keeps: the whole table store is the printed one once valid (R17, R65); the words past the schedule are
zero (R73, U12); while a command is in flight CMD shows its word and DONE and ERR are 0 (R24, R41); AllocationFailure is never
raised (R101, U9); the window stays aligned (R9). -/
structure State.Kept (s : State) : Prop where
  tables : s.tblValid = true → s.tbl = printedTables
  tail : ∀ i : Fin 60, (s.keyValid = false ∨ 4 * (s.ctx.nr.toNat + 1) ≤ i.val) → s.ctx.w[i] = 0
  inFlight : s.phase = .busy → s.cmd = s.lcmd ∧ s.done = false ∧ s.err = none
  noAllocationFailure : s.err ≠ some .allocationFailure
  aligned : s.aesBase % 256 = 0

/-! ### Blocks and schedules as the spec prints them -/

/-- A block printed as 32 hex digits, byte 0 first (95_test_vectors.md). -/
def blockOfHex (v : BitVec 128) : Block := tab fun i => v.extractLsb' (8 * (15 - i.val)) 8

/-- The round constant of the `j`-th use: "starting at 1", "multiplying by 2 in GF(2^8)" (R71). -/
def rconAt : Nat → Byte
  | 0 => 0x01
  | j + 1 => gfMul (rconAt j) 0x02

/-- `temp` of R72 before it is added to `W[i - Nk]`, for word `i`, from the word before it. -/
def scheduleTemp (t : Tables) (nk i : Nat) (prev : Word) : Word :=
  if i % nk = 0 then subWord t (rotWord prev) ^^^ (rconAt (i / nk - 1) ++ 0#24)
  else if 6 < nk ∧ i % nk = 4 then subWord t prev
  else prev

/-- `w` is the key schedule of the first `nk` words of `key`: R72's equations, and zeros past its end (R73). -/
def IsSchedule (t : Tables) (key : Vector Word 8) (nk : Nat) (w : Vector Word 60) : Prop :=
  (∀ i : Fin 8, i.val < nk → scheduleWord w i.val = key[i]) ∧
  (∀ i : Nat, nk ≤ i → i < 4 * (nk + 7) →
    scheduleWord w i = scheduleWord w (i - nk) ^^^ scheduleTemp t nk i (scheduleWord w (i - 1))) ∧
  (∀ i : Nat, 4 * (nk + 7) ≤ i → i < 60 → scheduleWord w i = 0)

/-- The carry-less product of two bytes, 15 bits (R58). -/
def clmul (a b : Byte) : BitVec 16 :=
  (List.range 8).foldl (fun acc k => if b.getLsbD k then acc ^^^ (a.setWidth 16 <<< k) else acc) 0

/-- The remainder of a polynomial of degree below 16 modulo x^8+x^4+x^3+x+1 (R14, R58). -/
def polyMod (p : BitVec 16) : Byte :=
  ((List.range 8).foldl (fun acc k => if acc.getLsbD (15 - k) then acc ^^^ (0x11B#16 <<< (7 - k)) else acc) p).setWidth 8

/-! ### Sequences of commands (R57, R90) and of turns (R43) -/

/-- One outcome after another: stop at the first that is no next state. -/
def andThen (o : Out) (go : State → Out) : Out :=
  match o with
  | .next t => go t
  | .fault r => .fault r
  | .refused r => .refused r

/-- The effects of a list of commands, one after another. -/
def runCommands : List Instr → State → Out
  | [], s => .next s
  | i :: rest, s => andThen (exec i s) (runCommands rest)

/-- `EROUND r` (R57). -/
def eRound (r : Byte) : List Instr := [.subBytes, .shiftRows, .mixColumns, .addRoundKey r]

/-- `EFINAL r` (R57). -/
def eFinal (r : Byte) : List Instr := [.subBytes, .shiftRows, .addRoundKey r]

/-- `DROUND r` (R57). -/
def dRound (r : Byte) : List Instr := [.invShiftRows, .invSubBytes, .addRoundKey r, .invMixColumns]

/-- `DFINAL` (R57). -/
def dFinal : List Instr := [.invShiftRows, .invSubBytes, .addRoundKey 0]

/-- `LOAD_STATE ; ADD_ROUND_KEY 0 ; EROUND 1 ; … ; EROUND NR-1 ; EFINAL NR` (R90). -/
def encSteps (nr : Nat) : List Instr :=
  [.loadState, .addRoundKey 0] ++ (List.range (nr - 1)).flatMap (fun k => eRound (BitVec.ofNat 8 (k + 1))) ++
    eFinal (BitVec.ofNat 8 nr)

/-- `LOAD_STATE ; ADD_ROUND_KEY NR ; DROUND NR-1 ; … ; DROUND 1 ; DFINAL` (R90). -/
def decSteps (nr : Nat) : List Instr :=
  [.loadState, .addRoundKey (BitVec.ofNat 8 nr)] ++
    (List.range (nr - 1)).reverse.flatMap (fun k => dRound (BitVec.ofNat 8 (k + 1))) ++ dFinal

/-- The parameter `cmd_latency` of an agenda: the number of host accesses before the core's turn (R9, U14). -/
def cmdLatency : List Turn → Nat
  | .host _ :: rest => cmdLatency rest + 1
  | .core :: _ => 0
  | .reset :: _ => 0
  | [] => 0

/-- The address of an access. -/
def Access.addr : Access → Nat
  | .read addr _ => addr
  | .write addr _ _ => addr

/-- The width of an access in bytes. -/
def Access.width : Access → Nat
  | .read _ width => width
  | .write _ width _ => width

/-- An access that the interface supports: in the window at `base`, 32 bits, aligned (R34). -/
def Access.supported (base : Nat) (a : Access) : Prop :=
  base ≤ a.addr ∧ a.addr < base + 256 ∧ a.width = 4 ∧ (a.addr - base) % 4 = 0

/-- A turn that no reset is in and whose access, if it is the host's, is supported. -/
def Turn.plain (base : Nat) : Turn → Prop
  | .host a => a.supported base
  | .core => True
  | .reset => False

/-- A list of host accesses, one after another. -/
def hostTurns : List Access → State → Out
  | [], s => .next s
  | a :: rest, s => andThen (hostTurn a s) (hostTurns rest)

/-- `n` steps of the machine (R43). -/
def runSteps : Nat → State → Out
  | 0, s => .next s
  | n + 1, s => andThen (step s) (runSteps n)

/-- The values of the table of R115 (70_reset_and_hazards.md), but for what it leaves unspecified. -/
structure State.HasResetValues (s : State) : Prop where
  schedule : ∀ i : Fin 60, s.ctx.w[i] = 0x00000000
  nk : s.ctx.nk = 0
  nr : s.ctx.nr = 0
  st : ∀ i : Fin 16, s.st[i] = 0x00
  cmd : s.cmd = 0x00000000
  rdata : s.rdata = 0x00000000
  key : ∀ k : Fin 8, s.key[k] = 0x00000000
  din : ∀ k : Fin 4, s.din[k] = 0x00000000
  dout : ∀ k : Fin 4, columnWord s.st k = 0x00000000
  status : s.status = 0x00000000
  fields : s.done = false ∧ s.tblValid = false ∧ s.keyValid = false ∧ s.err = none ∧ s.ovr = false
  phase : s.phase = .idle

/-- The four DOUT words (R28), as a block to write back into DIN. -/
def doutWords (s : State) : Vector Word 4 := tab fun k => columnWord s.st k

end Sys2Proof.Machine
end

