-- ==== Sys2Proof/Certificates/Slice0/Obligations.lean ====
section
/-! DEFINITION. The statements for the provers, from the numbered rules of spec/. "Completes" in a statement's text means: the
command ends with BUSY = 0, DONE = 1 and the stated ERR (R85). A next state written `{ s with … }` is the whole frame: every field
not named is as before. -/

open Sys2Proof Sys2Proof.Machine

/-! ### Reset, and what a step does -/

/-- R115, R116, R23: the reset input gives every register the value of the table, whatever was in flight, and none of a command's
effects survive: two states that differ only in the core end alike. The core is then idle and accepts a CMD write at once. The
model's choice in it: that they end alike in full rests on its zeros for T and for LCMD, LKEY, LDIN, RC and RCON, which R115
leaves unspecified (log entries 5, 6); that the reset is one turn which keeps the agenda and the window's place is log entry 11. -/
def Obligations.ResetInputGivesTheResetValues : Prop :=
  State.reset.HasResetValues ∧
  (∀ (s : State) (rest : List Turn), s.agenda = .reset :: rest →
    ∃ t, step s = .next t ∧ t.HasResetValues ∧ t.agenda = rest ∧ t.aesBase = s.aesBase) ∧
  (∀ (s s' : State) (rest : List Turn), s.agenda = .reset :: rest → s'.agenda = .reset :: rest →
    s'.aesBase = s.aesBase → s'.reply = s.reply → s'.draws = s.draws → step s' = step s) ∧
  (∀ (s : State) (v : Word) (rest : List Turn),
    s.agenda = .reset :: .host (.write s.aesBase 4 v) :: rest →
    ∃ t u, step s = .next t ∧ t.phase = .idle ∧ step t = .next u ∧ u.phase = .busy ∧ u.lcmd = v ∧ u.cmd = v)

/-- R85, with the model's turns (the choice of log entries 1, 2): when the core's turn comes, or no turn is to come, and the word
in flight decodes to `i`, the step is `exec i` at the state without that turn. A host turn is one host access; the core's turn
while idle changes nothing but the agenda; an idle machine with no turns to come stays as it is. -/
def Obligations.StepRunsTheDecodedCommand : Prop :=
  ∀ (s : State) (rest : List Turn),
    (∀ i, s.phase = .busy → decode s.lcmd = .ok i → i.wellFormed = true →
      (s.agenda = .core :: rest → step s = exec i { s with agenda := rest }) ∧ (s.agenda = [] → step s = exec i s)) ∧
    (∀ a, s.agenda = .host a :: rest → step s = hostTurn a { s with agenda := rest }) ∧
    (s.phase = .idle → s.agenda = .core :: rest → step s = .next { s with agenda := rest }) ∧
    (s.phase = .idle → s.agenda = [] → step s = .next s)

/-- The model's choice of log entry 12: placing a command word accepts it and gives the core the next turn, so the next step
performs exactly it, at the state its acceptance leaves. -/
def Obligations.PlacedCommandRunsNext : Prop :=
  ∀ (s : State) (w : Nat) (i : Instr), w < 2 ^ 32 → decodeTableWord 32 w = some i →
    step (s.withFetchWord 32 w) = exec i (s.accept (BitVec.ofNat 32 w))

/-- R85, R114: the core has a step only while a command is in flight; it performs the decoded command, or completes with
IllegalCommand if the word matches no row; it always ends with BUSY = 0, DONE = 1 and PHASE = IDLE. The model's choice in it:
while idle the core's turn is answered and changes nothing (log entry 2), where R85 says that the core has no step. -/
def Obligations.CoreStepPerformsAndCompletes : Prop :=
  ∀ s : State,
    (s.phase = .idle → coreTurn s = .next s) ∧
    (s.phase = .busy →
      (∀ i, decode s.lcmd = .ok i →
        coreTurn s = exec i s ∧ ∃ t, exec i s = .next t ∧ t.phase = .idle ∧ t.busy = false ∧ t.done = true) ∧
      (∀ e, decode s.lcmd = .error e →
        coreTurn s = .next { s with err := some .illegalCommand, done := true, phase := .idle }))

/-- R85, R100, R108: every command completes, and leaves alone what only the host, acceptance or the platform writes. -/
def Obligations.EveryCommandCompletesWithinItsFrame : Prop :=
  ∀ (i : Instr) (s : State), ∃ t, exec i s = .next t ∧ t.phase = .idle ∧ t.done = true ∧
    t.cmd = s.cmd ∧ t.key = s.key ∧ t.din = s.din ∧ t.ovr = s.ovr ∧
    t.lcmd = s.lcmd ∧ t.lkey = s.lkey ∧ t.ldin = s.ldin ∧
    t.aesBase = s.aesBase ∧ t.agenda = s.agenda ∧ t.reply = s.reply ∧ t.draws = s.draws

/-! ### Encoding -/

/-- R52: the decoder agrees with the match and mask rows; at most one row matches a word; a word that matches none completes
with IllegalCommand and no other effect. -/
def Obligations.DecodeFollowsMatchAndMask : Prop :=
  (∀ w : Word, ∀ row ∈ opcodeRows, row.hits w → decode w = .ok (row.build (w.extractLsb' 8 8) (w.extractLsb' 16 8))) ∧
  (∀ w : Word, (∀ row ∈ opcodeRows, ¬ row.hits w) → ∃ e, decode w = .error e) ∧
  (∀ w : Word, opcodeRows.Pairwise fun r r' => ¬ (r.hits w ∧ r'.hits w)) ∧
  (∀ s : State, (∀ row ∈ opcodeRows, ¬ row.hits s.lcmd) →
    perform s = .next { s with err := some .illegalCommand, done := true, phase := .idle })

/-- 30_encoding.md: decoding the encoding of a command gives it back, with every operand at every value, and every word that
decodes is the encoding of what it decodes to. -/
def Obligations.DecodeAndEncodeAgree : Prop :=
  (∀ i : Instr, i.wellFormed = true → decode (encode i) = .ok i) ∧
  (∀ (w : Word) (i : Instr), decode w = .ok i → encode i = w)

/-- R53: the three classes of illegal words complete with IllegalCommand and have no other effect. -/
def Obligations.IllegalWordsCompleteWithIllegalCommand : Prop :=
  ∀ s : State,
    (s.lcmd.extractLsb' 24 8 ≠ 0 ∨
      (0x06 ≤ (s.lcmd.extractLsb' 0 8).toNat ∧ (s.lcmd.extractLsb' 0 8).toNat ≤ 0x0F) ∨
      (0x18 ≤ (s.lcmd.extractLsb' 0 8).toNat ∧ (s.lcmd.extractLsb' 0 8).toNat ≤ 0x1F) ∨
      0x23 ≤ (s.lcmd.extractLsb' 0 8).toNat ∨
      (s.lcmd.extractLsb' 0 8 ∉ [0x02#8, 0x17, 0x20, 0x21, 0x22] ∧ s.lcmd.extractLsb' 8 8 ≠ 0) ∨
      (s.lcmd.extractLsb' 0 8 ∉ [0x20#8, 0x22] ∧ s.lcmd.extractLsb' 16 8 ≠ 0)) →
    perform s = .next { s with err := some .illegalCommand, done := true, phase := .idle } ∧
      errCode (some .illegalCommand) = 5

/-- R55 (the words printed in 30_encoding.md and 95_test_vectors.md): a few words decode to the commands they stand for. -/
def Obligations.PrintedWordsDecode : Prop :=
  decode 0x00001002 = .ok (.keyExpand 16) ∧ decode 0x00000A17 = .ok (.addRoundKey 10) ∧
  decode 0x00025320 = .ok (.tblRead 2 0x53) ∧ decode 0x00835722 = .ok (.gfMul 0x57 0x83) ∧
  decode 0x00000000 = .ok .nop ∧ decode 0x00000003 = .ok .encBlock ∧ decode 0x00000011 = .ok .subBytes ∧
  decode 0x00002B21 = .ok (.ksRead 43)

/-! ### Errors -/

/-- R104, R86: a command that fails writes ERR, BUSY and DONE (PHASE is BUSY's home) and nothing else. -/
def Obligations.FailingCommandWritesOnlyStatus : Prop :=
  ∀ (s t : State) (e : CmdError), perform s = .next t → t.err = some e →
    t = { s with err := some e, done := true, phase := .idle }

/-- R103, R54, with the causes of R101: which error a command in flight reports: the first that applies, in the order of R103;
none if none applies. An operand the command cannot use is an argument error, not IllegalCommand. -/
def Obligations.ErrorsFollowCauseAndPriority : Prop :=
  ∀ s : State, ∃ t, perform s = .next t ∧
    (∀ e, decode s.lcmd = .error e → t.err = some .illegalCommand) ∧
    (∀ i, decode s.lcmd = .ok i →
      (i.readsTables = true ∧ s.tblValid = false → t.err = some .tablesNotReady) ∧
      (¬ (i.readsTables = true ∧ s.tblValid = false) →
        (i.readsContext = true ∧ s.keyValid = false → t.err = some .noContext) ∧
        (¬ (i.readsContext = true ∧ s.keyValid = false) →
          ¬ (i.lengthInvalid ∧ i.operandOutOfRange s.ctx.nr.toNat) ∧
          (i.lengthInvalid → t.err = some .invalidKeyLength) ∧
          (i.operandOutOfRange s.ctx.nr.toNat → t.err = some .badArgument) ∧
          (¬ i.lengthInvalid → ¬ i.operandOutOfRange s.ctx.nr.toNat → t.err = none))))

/-- R26, R101: the fields of the STATUS word; reserved bits read 0; the codes of the error causes. -/
def Obligations.StatusWordLayout : Prop :=
  (∀ s : State,
    (s.status.extractLsb' 0 1 = 1 ↔ s.phase = .busy) ∧
    (s.status.extractLsb' 1 1 = 1 ↔ s.done = true) ∧
    (s.status.extractLsb' 2 1 = 1 ↔ s.tblValid = true) ∧
    (s.status.extractLsb' 3 1 = 1 ↔ s.ctx.nk ≠ 0) ∧
    s.status.extractLsb' 4 4 = errCode s.err ∧
    (s.status.extractLsb' 8 1 = 1 ↔ s.ovr = true) ∧
    s.status.extractLsb' 9 3 = 0 ∧
    s.status.extractLsb' 12 4 = s.ctx.nk ∧
    s.status.extractLsb' 16 4 = s.ctx.nr ∧
    s.status.extractLsb' 20 12 = 0) ∧
  errCode none = 0 ∧ errCode (some .invalidKeyLength) = 1 ∧ errCode (some .tablesNotReady) = 2 ∧
  errCode (some .noContext) = 3 ∧ errCode (some .badArgument) = 4 ∧ errCode (some .illegalCommand) = 5 ∧
  errCode (some .allocationFailure) = 6

/-- R105, R106, R26: in a step that neither accepts a command nor resets the machine, OVR once set stays set, and ERR and DONE
change only if it completes the command in flight. -/
def Obligations.ErrorAndOverrunStayUntilAcceptance : Prop :=
  ∀ s t : State, step s = .next t → s.agenda.head? ≠ some .reset → ¬ (s.phase = .idle ∧ t.phase = .busy) →
    (s.ovr = true → t.ovr = true) ∧ (t.phase = s.phase → t.err = s.err ∧ t.done = s.done)

/-! ### Field arithmetic and tables -/

/-- R59: the properties of `gf_mul`. -/
def Obligations.GfMulProperties : Prop :=
  (∀ a b : Byte, gfMul a b = gfMul b a) ∧ (∀ a : Byte, gfMul a 0 = 0) ∧ (∀ a : Byte, gfMul a 1 = a) ∧
  (∀ a b c : Byte, gfMul a (b ^^^ c) = gfMul a b ^^^ gfMul a c) ∧
  (∀ a b c : Byte, gfMul (a ^^^ b) c = gfMul a c ^^^ gfMul b c) ∧
  (∀ a : Byte, gfMul a 2 = ((a.setWidth 9 <<< 1) ^^^ (if a.getLsbD 7 then 0x11B#9 else 0)).setWidth 8) ∧
  gfMul 0x57 0x83 = 0xC1 ∧ gfMul 0x57 0x13 = 0xFE ∧ gfMul 0x80 0x02 = 0x1B ∧ gfMul 0xFF 0xFF = 0x13

/-- R58: the shift-and-reduce loop is carry-less multiplication followed by reduction modulo 0x11B. -/
def Obligations.GfMulIsPolynomialProduct : Prop :=
  ∀ a b : Byte, gfMul a b = polyMod (clmul a b)

/-- R60: after TBL_INIT the tables log and ilog are the discrete logarithm to base 0x03 and its inverse, and the two entries the
loop never writes are 0x00. -/
def Obligations.LogTablesAreDiscreteLogarithms : Prop :=
  ∀ s : State, s.tblValid = false →
    ∃ t, exec .tblInit s = .next t ∧
      t.tbl.ilog[0] = 0x01 ∧
      (∀ i : Fin 254, t.tbl.ilog[i.val + 1] = gfMul t.tbl.ilog[i.val] 0x03) ∧
      gfMul t.tbl.ilog[254] 0x03 = 0x01 ∧
      (∀ i : Fin 255, tableGet t.tbl.log t.tbl.ilog[i.val] = BitVec.ofNat 8 i.val) ∧
      (∀ x : Byte, x ≠ 0 → (tableGet t.tbl.log x).toNat < 255 ∧ tableGet t.tbl.ilog (tableGet t.tbl.log x) = x) ∧
      t.tbl.log[0] = 0x00 ∧ t.tbl.ilog[255] = 0x00

/-- R61: `inv` by the tables TBL_INIT builds: 0 for 0 and, the corner case, for 1; the field inverse for every other byte. The
index it reads is in 1..255, and in 1..254 from a = 2 on. -/
def Obligations.TableInverseAndItsCornerCase : Prop :=
  ∀ s : State, s.tblValid = false →
    ∃ t, exec .tblInit s = .next t ∧
      (∀ a : Byte, invOf t.tbl a = if a = 0 then 0x00 else t.tbl.ilog[(255 - tableGet t.tbl.log a).toNat]) ∧
      (∀ a : Byte, a ≠ 0 → 1 ≤ 255 - (tableGet t.tbl.log a).toNat ∧ 255 - (tableGet t.tbl.log a).toNat ≤ 255) ∧
      invOf t.tbl 0x01 = 0x00 ∧
      (∀ a : Byte, 2 ≤ a.toNat →
        1 ≤ 255 - (tableGet t.tbl.log a).toNat ∧ 255 - (tableGet t.tbl.log a).toNat ≤ 254 ∧
        gfMul a (invOf t.tbl a) = 0x01)

/-- R62, R63: the bits of the affine transform with its two worked values; the generic construction before the patch: where it
is already right and the entries it gets wrong. -/
def Obligations.GenericBoxesBeforeThePatch : Prop :=
  (∀ (y : Byte) (b : Fin 8),
    (affine y).getLsbD b.val =
      (y.getLsbD b.val ^^ y.getLsbD ((b.val + 4) % 8) ^^ y.getLsbD ((b.val + 5) % 8) ^^ y.getLsbD ((b.val + 6) % 8) ^^
        y.getLsbD ((b.val + 7) % 8) ^^ (0x63#8).getLsbD b.val)) ∧
  affine 0x00 = 0x63 ∧ affine 0x01 = 0x7C ∧
  (∀ a : Byte, tableGet genericTables.sbox a = affine (invOf genericTables a)) ∧
  tableGet genericTables.sbox 0x01 = 0x63 ∧ tableGet genericTables.sbox 0x00 = 0x63 ∧
  tableGet genericTables.isbox 0x63 = 0x01 ∧ tableGet genericTables.isbox 0x7C = 0x00 ∧
  (∀ v : Byte, v = 0x7C ↔ ∀ a : Byte, tableGet genericTables.sbox a ≠ v) ∧
  (∀ a : Byte, a ≠ 0x01 → tableGet genericTables.sbox a = tableGet printedSbox a) ∧
  (∀ y : Byte, y ≠ 0x63 → y ≠ 0x7C → tableGet genericTables.isbox y = tableGet printedIsbox y) ∧
  (∀ x : Byte, tableGet genericTables.isbox (tableGet genericTables.sbox x) = x ↔ x ≠ 0)

/-- R64: the patch: three entries, after which the inverse box undoes the forward box and both are the printed ones, whatever
`T.ilog[255]` held. -/
def Obligations.PatchRepairsTheBoxes : Prop :=
  tableGet builtTables.sbox 0x01 = 0x7C ∧ tableGet builtTables.isbox 0x7C = 0x01 ∧ tableGet builtTables.isbox 0x63 = 0x00 ∧
  (∀ a : Byte, a ≠ 0x01 → tableGet builtTables.sbox a = tableGet genericTables.sbox a) ∧
  (∀ y : Byte, y ≠ 0x63 → y ≠ 0x7C → tableGet builtTables.isbox y = tableGet genericTables.isbox y) ∧
  (∀ x : Byte, tableGet builtTables.isbox (tableGet builtTables.sbox x) = x) ∧
  builtTables.sbox = printedSbox ∧ builtTables.isbox = printedIsbox ∧
  (∀ v : Byte, ∀ logs, logs = logLoop 255 0x00 0x01 clearedTables →
    (patch (boxLoop 256 0x00 { logs with ilog := tablePut logs.ilog 0xFF v })).sbox = printedSbox ∧
    (patch (boxLoop 256 0x00 { logs with ilog := tablePut logs.ilog 0xFF v })).isbox = printedIsbox)

/-- R66, R65: TBL_INIT builds the printed tables and sets TBL_VALID; a repeat changes nothing and succeeds. -/
def Obligations.TblInitBuildsThePrintedTables : Prop :=
  EncodesAlone 0x01 .tblInit ∧
  (∀ s : State, s.tblValid = false →
    exec .tblInit s =
      .next { s with tbl := printedTables, tblValid := true, err := none, done := true, phase := .idle }) ∧
  (∀ s : State, s.tblValid = true → exec .tblInit s = .next { s with err := none, done := true, phase := .idle }) ∧
  (∃ t u, exec .tblInit (State.reset.accept 0x00000001) = .next t ∧ t.status = 0x00000006 ∧
    exec (.tblRead 2 0x01) t = .next u ∧ u.rdata = 0x0000007C)

/-- R67: TBL_READ puts the selected byte in RDATA, or fails. -/
def Obligations.TblReadReturnsTheSelectedByte : Prop :=
  EncodesWithAB 0x20 (fun a b => .tblRead b a) ∧
  (∀ (s : State) (sel index : Byte),
    (s.tblValid = false →
      exec (.tblRead sel index) s = .next { s with err := some .tablesNotReady, done := true, phase := .idle }) ∧
    (s.tblValid = true →
      (∀ t : Table,
        (sel = 0 ∧ t = s.tbl.log ∨ sel = 1 ∧ t = s.tbl.ilog ∨ sel = 2 ∧ t = s.tbl.sbox ∨ sel = 3 ∧ t = s.tbl.isbox) →
        exec (.tblRead sel index) s =
          .next { s with rdata := 0#24 ++ t[index.toNat], err := none, done := true, phase := .idle }) ∧
      (sel.toNat > 3 →
        exec (.tblRead sel index) s = .next { s with err := some .badArgument, done := true, phase := .idle }))) ∧
  tableGet printedLog 0x00 = 0x00 ∧ tableGet printedIlog 0xFF = 0x00 ∧ tableGet printedIsbox 0x7C = 0x01

/-- R68: GF_MUL puts the product in RDATA, with or without tables and context. -/
def Obligations.GfMulReturnsTheProduct : Prop :=
  EncodesWithAB 0x22 .gfMul ∧
  (∀ (s : State) (a b : Byte),
    exec (.gfMul a b) s = .next { s with rdata := 0#24 ++ gfMul a b, err := none, done := true, phase := .idle }) ∧
  (∀ x : Byte, gfMul 0 x = 0 ∧ gfMul x 0 = 0 ∧ gfMul 1 x = x) ∧ gfMul 0x80 2 = 0x1B ∧ gfMul 0x57 0x83 = 0xC1

/-! ### The key schedule and the context -/

/-- R70, R71: RotWord and SubWord on bytes, with the worked values; the round constants, where they are injected, and how many
of them each key length uses. The uses are counted by the value RCON keeps after the command, which is the model's reading (log
entry 14): R30 calls RCON live only while a command is performed. -/
def Obligations.WordOperationsAndRoundConstants : Prop :=
  (∀ w : Word, rotWord w = w.extractLsb' 0 24 ++ w.extractLsb' 24 8) ∧
  (∀ (w : Word) (r : Fin 4), byteOf (rotWord w) r = byteOf w (r + 1)) ∧
  (∀ (t : Tables) (w : Word) (r : Fin 4), byteOf (subWord t w) r = tableGet t.sbox (byteOf w r)) ∧
  rotWord 0x0C0D0E0F = 0x0D0E0F0C ∧ subWord printedTables 0x0D0E0F0C = 0xD7AB76FE ∧
  (∀ x : Byte, rconWord x = x ++ 0#24) ∧
  (List.range 10).map rconAt = [0x01#8, 0x02, 0x04, 0x08, 0x10, 0x20, 0x40, 0x80, 0x1B, 0x36] ∧
  (∀ s : State, s.tblValid = true →
    (∃ t, exec (.keyExpand 16) s = .next t ∧ t.rcon = rconAt 10) ∧
    (∃ t, exec (.keyExpand 24) s = .next t ∧ t.rcon = rconAt 8) ∧
    (∃ t, exec (.keyExpand 32) s = .next t ∧ t.rcon = rconAt 7))

/-- R72: the expansion is the one schedule that R72's equations describe, for each of the three key lengths; the worked example. -/
def Obligations.ExpansionSatisfiesTheRecurrence : Prop :=
  (∀ (t : Tables) (key : Vector Word 8) (nk : Nat), nk = 4 ∨ nk = 6 ∨ nk = 8 →
    ∀ w : Vector Word 60, w = (expand t key nk).1 ↔ IsSchedule t key nk w) ∧
  (∀ key : Vector Word 8, key[0] = 0x00010203 → key[1] = 0x04050607 → key[2] = 0x08090A0B → key[3] = 0x0C0D0E0F →
    (expand printedTables key 4).1[4] = 0xD6AA74FD ∧ (expand printedTables key 4).1[5] = 0xD2AF72FA ∧
    (expand printedTables key 4).1[6] = 0xDAA678F1 ∧ (expand printedTables key 4).1[7] = 0xD6AB76FE ∧
    (expand printedTables key 4).1[43] = 0x4D2B30C5)

/-- R73, R69: KEY_EXPAND creates the context of a valid length from the key snapshot, replacing any other; any other length, or
no tables, fails and changes nothing but STATUS. -/
def Obligations.KeyExpandCreatesTheContext : Prop :=
  EncodesWithA 0x02 .keyExpand ∧
  (∀ (s : State) (len : Byte),
    (s.tblValid = false →
      exec (.keyExpand len) s = .next { s with err := some .tablesNotReady, done := true, phase := .idle }) ∧
    (s.tblValid = true → len ≠ 16 → len ≠ 24 → len ≠ 32 →
      exec (.keyExpand len) s = .next { s with err := some .invalidKeyLength, done := true, phase := .idle }) ∧
    (∀ nk : Nat, s.tblValid = true → len.toNat = 4 * nk → (nk = 4 ∨ nk = 6 ∨ nk = 8) →
      ∃ (w : Vector Word 60) (rcon : Byte),
        IsSchedule s.tbl s.lkey nk w ∧
        exec (.keyExpand len) s =
          .next
            { s with
              ctx := { w := w, nk := BitVec.ofNat 4 nk, nr := BitVec.ofNat 4 (nk + 6) }
              rcon := rcon, err := none, done := true, phase := .idle })) ∧
  (∀ s : State, s.tblValid = true → s.ovr = false →
    (∃ t, exec (.keyExpand 16) s = .next t ∧ t.status = 0x000A400E) ∧
    (∃ t, exec (.keyExpand 24) s = .next t ∧ t.status = 0x000C600E) ∧
    (∃ t, exec (.keyExpand 32) s = .next t ∧ t.status = 0x000E800E))

/-- R74: KS_READ puts the schedule word in RDATA, or fails; the first Nk words are the raw key words. -/
def Obligations.KsReadReturnsTheScheduleWord : Prop :=
  EncodesWithA 0x21 .ksRead ∧
  (∀ (s : State) (index : Byte),
    (s.keyValid = false →
      exec (.ksRead index) s = .next { s with err := some .noContext, done := true, phase := .idle }) ∧
    (s.keyValid = true → index.toNat ≥ 4 * (s.ctx.nr.toNat + 1) →
      exec (.ksRead index) s = .next { s with err := some .badArgument, done := true, phase := .idle }) ∧
    (s.keyValid = true → index.toNat < 4 * (s.ctx.nr.toNat + 1) →
      exec (.ksRead index) s =
        .next { s with rdata := scheduleWord s.ctx.w index.toNat, err := none, done := true, phase := .idle })) ∧
  (∀ (w : Vector Word 60) (i : Fin 60), scheduleWord w i.val = w[i]) ∧
  (∀ (s t : State) (len : Byte) (i : Fin 8), exec (.keyExpand len) s = .next t → t.err = none → i.val < t.ctx.nk.toNat →
    ∃ u, exec (.ksRead (BitVec.ofNat 8 i.val)) t = .next u ∧ u.rdata = s.lkey[i] ∧ u.err = none) ∧
  (∀ s : State, s.tblValid = true → s.tbl = printedTables →
    s.lkey[0] = 0x00010203 → s.lkey[1] = 0x04050607 → s.lkey[2] = 0x08090A0B → s.lkey[3] = 0x0C0D0E0F →
    ∃ t u, exec (.keyExpand 16) s = .next t ∧ exec (.ksRead 43) t = .next u ∧ u.rdata = 0x4D2B30C5)

/-- R75's pseudocode (the model's reading of R75, log entry 19): RELEASE zeroes the schedule, the state and RDATA and clears the
context, with a context held or without, and leaves tables and keys; afterwards a block command fails with NoContext. -/
def Obligations.ReleaseDestroysTheContext : Prop :=
  EncodesAlone 0x05 .release ∧
  (∀ s : State,
    exec .release s =
      .next
        { s with
          ctx := { w := Vector.replicate 60 0, nk := 0, nr := 0 }, st := Vector.replicate 16 0, rdata := 0
          err := none, done := true, phase := .idle }) ∧
  (∀ s t : State, s.tblValid = true → s.ovr = false → exec .release s = .next t →
    t.status = 0x00000006 ∧ ∃ u, exec .encBlock t = .next u ∧ u.err = some .noContext)

/-! ### The round engine -/

/-- R11, R12, R28, R37: bytes of a word, most significant first; DOUT is the state column by column. -/
def Obligations.ByteOrderOfWordsAndBlocks : Prop :=
  (∀ w : Word, byteOf w 0 = w.extractLsb' 24 8 ∧ byteOf w 1 = w.extractLsb' 16 8 ∧ byteOf w 2 = w.extractLsb' 8 8 ∧
    byteOf w 3 = w.extractLsb' 0 8) ∧
  (∀ b0 b1 b2 b3 : Byte, wordOf b0 b1 b2 b3 = b0 ++ b1 ++ b2 ++ b3) ∧
  (∀ (s : Block) (r c : Fin 4), cell s r c = s[4 * c.val + r.val]) ∧
  (∀ (s : Block) (k j : Fin 4), byteOf (columnWord s k) j = s[4 * k.val + j.val])

/-- R76: LOAD_STATE copies the DIN snapshot into the state; DOUT reads the DIN words back. -/
def Obligations.LoadStateCopiesTheBlock : Prop :=
  EncodesAlone 0x10 .loadState ∧
  (∀ s : State, ∃ b : Block,
    exec .loadState s = .next { s with st := b, err := none, done := true, phase := .idle } ∧
    (∀ k j : Fin 4, b[4 * k.val + j.val] = byteOf s.ldin[k] j) ∧ (∀ k : Fin 4, columnWord b k = s.ldin[k])) ∧
  blockOfWords #v[0x00112233, 0x44556677, 0x8899AABB, 0xCCDDEEFF] = blockOfHex 0x00112233445566778899AABBCCDDEEFF

/-- R77: SUB_BYTES replaces each byte by its S-box entry, or fails without tables. -/
def Obligations.SubBytesReplacesEachByte : Prop :=
  EncodesAlone 0x11 .subBytes ∧
  (∀ s : State,
    (s.tblValid = false → exec .subBytes s = .next { s with err := some .tablesNotReady, done := true, phase := .idle }) ∧
    (s.tblValid = true → ∃ b : Block,
      exec .subBytes s = .next { s with st := b, err := none, done := true, phase := .idle } ∧
      ∀ i : Fin 16, b[i] = s.tbl.sbox[s.st[i].toNat])) ∧
  (∀ x : Byte, tableGet printedSbox x ≠ x) ∧
  subBytes printedTables (Vector.replicate 16 0x00) = Vector.replicate 16 0x63 ∧
  subBytes printedTables (blockOfHex 0x000102030405060708090A0B0C0D0E0F) = blockOfHex 0x637C777BF26B6FC53001672BFED7AB76

/-- R78: INV_SUB_BYTES replaces each byte by its inverse S-box entry, or fails without tables; it undoes SubBytes. -/
def Obligations.InvSubBytesReplacesEachByte : Prop :=
  EncodesAlone 0x12 .invSubBytes ∧
  (∀ s : State,
    (s.tblValid = false →
      exec .invSubBytes s = .next { s with err := some .tablesNotReady, done := true, phase := .idle }) ∧
    (s.tblValid = true → ∃ b : Block,
      exec .invSubBytes s = .next { s with st := b, err := none, done := true, phase := .idle } ∧
      ∀ i : Fin 16, b[i] = s.tbl.isbox[s.st[i].toNat])) ∧
  (∀ s : State, s.Inv → s.tblValid = true → invSubBytes s.tbl (subBytes s.tbl s.st) = s.st) ∧
  invSubBytes printedTables (Vector.replicate 16 0x63) = Vector.replicate 16 0x00 ∧
  invSubBytes printedTables (blockOfHex 0x000102030405060708090A0B0C0D0E0F) =
    blockOfHex 0x52096AD53036A538BF40A39E81F3D7FB

/-- R79: SHIFT_ROWS rotates row r left by r, as the printed permutation of indices; row 0 stays and four times is the identity. -/
def Obligations.ShiftRowsRotatesLeft : Prop :=
  EncodesAlone 0x13 .shiftRows ∧
  (∀ s : State, ∃ b : Block,
    exec .shiftRows s = .next { s with st := b, err := none, done := true, phase := .idle } ∧
    b = #v[s.st[0], s.st[5], s.st[10], s.st[15], s.st[4], s.st[9], s.st[14], s.st[3],
      s.st[8], s.st[13], s.st[2], s.st[7], s.st[12], s.st[1], s.st[6], s.st[11]] ∧
    (∀ r c : Fin 4, cell b r c = cell s.st r ⟨(c.val + r.val) % 4, Nat.mod_lt _ (by decide)⟩) ∧
    (∀ c : Fin 4, cell b 0 c = cell s.st 0 c) ∧
    shiftRows (shiftRows (shiftRows b)) = s.st) ∧
  shiftRows (blockOfHex 0x000102030405060708090A0B0C0D0E0F) = blockOfHex 0x00050A0F04090E03080D02070C01060B

/-- R80: INV_SHIFT_ROWS rotates row r right by r, as the printed permutation; it undoes ShiftRows and commutes with InvSubBytes. -/
def Obligations.InvShiftRowsRotatesRight : Prop :=
  EncodesAlone 0x14 .invShiftRows ∧
  (∀ s : State, ∃ b : Block,
    exec .invShiftRows s = .next { s with st := b, err := none, done := true, phase := .idle } ∧
    b = #v[s.st[0], s.st[13], s.st[10], s.st[7], s.st[4], s.st[1], s.st[14], s.st[11],
      s.st[8], s.st[5], s.st[2], s.st[15], s.st[12], s.st[9], s.st[6], s.st[3]] ∧
    (∀ r c : Fin 4, cell b r c = cell s.st r ⟨(c.val + 4 - r.val) % 4, Nat.mod_lt _ (by decide)⟩) ∧
    invShiftRows (shiftRows s.st) = s.st ∧
    (∀ t : Tables, invShiftRows (invSubBytes t s.st) = invSubBytes t (invShiftRows s.st))) ∧
  invShiftRows (blockOfHex 0x000102030405060708090A0B0C0D0E0F) = blockOfHex 0x000D0A0704010E0B0805020F0C090603

/-- R81: MIX_COLUMNS multiplies each column by the fixed matrix, written out; a column of four equal bytes stays. -/
def Obligations.MixColumnsMultipliesEachColumn : Prop :=
  EncodesAlone 0x15 .mixColumns ∧
  (∀ s : State, ∃ b : Block,
    exec .mixColumns s = .next { s with st := b, err := none, done := true, phase := .idle } ∧
    ∀ c : Fin 4, ∀ a0 a1 a2 a3 : Byte,
      cell s.st 0 c = a0 → cell s.st 1 c = a1 → cell s.st 2 c = a2 → cell s.st 3 c = a3 →
      cell b 0 c = gfMul 2 a0 ^^^ gfMul 3 a1 ^^^ a2 ^^^ a3 ∧
      cell b 1 c = a0 ^^^ gfMul 2 a1 ^^^ gfMul 3 a2 ^^^ a3 ∧
      cell b 2 c = a0 ^^^ a1 ^^^ gfMul 2 a2 ^^^ gfMul 3 a3 ∧
      cell b 3 c = gfMul 3 a0 ^^^ a1 ^^^ a2 ^^^ gfMul 2 a3 ∧
      (a1 = a0 → a2 = a0 → a3 = a0 → ∀ r : Fin 4, cell b r c = a0)) ∧
  mixColumns (blockOfHex 0xDB135345DB135345DB135345DB135345) = blockOfHex 0x8E4DA1BC8E4DA1BC8E4DA1BC8E4DA1BC ∧
  mixColumns (blockOfHex 0x000102030405060708090A0B0C0D0E0F) = blockOfHex 0x02070005060304010A0F080D0E0B0C09

/-- R82: INV_MIX_COLUMNS multiplies each column by the inverse matrix; it undoes MixColumns; constant columns stay. -/
def Obligations.InvMixColumnsMultipliesEachColumn : Prop :=
  EncodesAlone 0x16 .invMixColumns ∧
  (∀ s : State, ∃ b : Block,
    exec .invMixColumns s = .next { s with st := b, err := none, done := true, phase := .idle } ∧
    (∀ c : Fin 4, ∀ a0 a1 a2 a3 : Byte,
      cell s.st 0 c = a0 → cell s.st 1 c = a1 → cell s.st 2 c = a2 → cell s.st 3 c = a3 →
      cell b 0 c = gfMul 14 a0 ^^^ gfMul 11 a1 ^^^ gfMul 13 a2 ^^^ gfMul 9 a3 ∧
      cell b 1 c = gfMul 9 a0 ^^^ gfMul 14 a1 ^^^ gfMul 11 a2 ^^^ gfMul 13 a3 ∧
      cell b 2 c = gfMul 13 a0 ^^^ gfMul 9 a1 ^^^ gfMul 14 a2 ^^^ gfMul 11 a3 ∧
      cell b 3 c = gfMul 11 a0 ^^^ gfMul 13 a1 ^^^ gfMul 9 a2 ^^^ gfMul 14 a3 ∧
      (a1 = a0 → a2 = a0 → a3 = a0 → ∀ r : Fin 4, cell b r c = a0)) ∧
    invMixColumns (mixColumns s.st) = s.st) ∧
  invMixColumns (blockOfHex 0x8E4DA1BC8E4DA1BC8E4DA1BC8E4DA1BC) = blockOfHex 0xDB135345DB135345DB135345DB135345

/-- R83: ADD_ROUND_KEY adds the words of the round key column by column, or fails; it is its own inverse; round 0 adds the raw
key words; the printed round key 10. -/
def Obligations.AddRoundKeyAddsTheRoundKey : Prop :=
  EncodesWithA 0x17 .addRoundKey ∧
  (∀ (s : State) (round : Byte),
    (s.keyValid = false →
      exec (.addRoundKey round) s = .next { s with err := some .noContext, done := true, phase := .idle }) ∧
    (s.keyValid = true → round.toNat > s.ctx.nr.toNat →
      exec (.addRoundKey round) s = .next { s with err := some .badArgument, done := true, phase := .idle }) ∧
    (s.keyValid = true → round.toNat ≤ s.ctx.nr.toNat → ∃ b : Block,
      exec (.addRoundKey round) s = .next { s with st := b, err := none, done := true, phase := .idle } ∧
      (∀ r c : Fin 4, cell b r c = cell s.st r c ^^^ byteOf (scheduleWord s.ctx.w (4 * round.toNat + c.val)) r) ∧
      addRoundKey s.ctx.w round.toNat b = s.st)) ∧
  (∀ (t : Tables) (key : Vector Word 8) (nk : Nat) (w : Vector Word 60) (b : Block) (r c : Fin 4),
    4 ≤ nk → IsSchedule t key nk w → cell (addRoundKey w 0 b) r c = cell b r c ^^^ byteOf key[c.val] r) ∧
  (∀ w : Vector Word 60, w[0] = 0x00010203 → w[1] = 0x04050607 → w[2] = 0x08090A0B → w[3] = 0x0C0D0E0F →
    addRoundKey w 0 (blockOfHex 0x000102030405060708090A0B0C0D0E0F) = Vector.replicate 16 0x00) ∧
  (∀ w : Vector Word 60, w[40] = 0x13111D7F → w[41] = 0xE3944A17 → w[42] = 0xF307A78B → w[43] = 0x4D2B30C5 →
    addRoundKey w 10 (blockOfHex 0x000102030405060708090A0B0C0D0E0F) = blockOfHex 0x13101F7CE7914C10FB0EAD8041263ECA)

/-- R84: the laws of the primitives, for every block and every round. -/
def Obligations.RoundPrimitiveLaws : Prop :=
  ∀ s : State, s.Inv → s.tblValid = true → ∀ (b : Block) (round : Nat), round ≤ s.ctx.nr.toNat →
    invSubBytes s.tbl (subBytes s.tbl b) = b ∧ invShiftRows (shiftRows b) = b ∧ invMixColumns (mixColumns b) = b ∧
    addRoundKey s.ctx.w round (addRoundKey s.ctx.w round b) = b ∧
    subBytes s.tbl (shiftRows b) = shiftRows (subBytes s.tbl b) ∧
    invSubBytes s.tbl (invShiftRows b) = invShiftRows (invSubBytes s.tbl b)

/-! ### The block commands -/

/-- R87: ENC_BLOCK runs the Encrypt sequence on the DIN snapshot, or fails; the source's known-answer vector. That RC keeps NR
after the command is the model's reading (log entry 14): R30 calls RC live only while a command is performed. -/
def Obligations.EncBlockRunsTheEncryptSequence : Prop :=
  EncodesAlone 0x03 .encBlock ∧
  (∀ s : State,
    (s.tblValid = false → exec .encBlock s = .next { s with err := some .tablesNotReady, done := true, phase := .idle }) ∧
    (s.tblValid = true → s.keyValid = false →
      exec .encBlock s = .next { s with err := some .noContext, done := true, phase := .idle }) ∧
    (s.tblValid = true → s.keyValid = true → ∀ (nr : Nat) (first middle last : Block),
      nr = s.ctx.nr.toNat →
      first = addRoundKey s.ctx.w 0 (blockOfWords s.ldin) →
      middle = (List.range (nr - 1)).foldl
        (fun b k => addRoundKey s.ctx.w (k + 1) (mixColumns (shiftRows (subBytes s.tbl b)))) first →
      last = addRoundKey s.ctx.w nr (shiftRows (subBytes s.tbl middle)) →
      exec .encBlock s =
        .next { s with st := last, rc := BitVec.ofNat 8 nr, err := none, done := true, phase := .idle })) ∧
  (∀ (s : State), s.tblValid = true → s.tbl = printedTables →
    s.lkey[0] = 0x00010203 → s.lkey[1] = 0x04050607 → s.lkey[2] = 0x08090A0B → s.lkey[3] = 0x0C0D0E0F →
    s.ldin = #v[0x00112233, 0x44556677, 0x8899AABB, 0xCCDDEEFF] →
    ∃ t u, exec (.keyExpand 16) s = .next t ∧ exec .encBlock t = .next u ∧
      u.st = blockOfHex 0x69C4E0D86A7B0430D8CDB78070B4C55A)

/-- R88: DEC_BLOCK runs the Decrypt sequence on the DIN snapshot, or fails; any 16 bytes succeed; the known-answer vector back.
That RC keeps 0 after the command is the model's reading (log entry 14): R30 calls RC live only while a command is performed. -/
def Obligations.DecBlockRunsTheDecryptSequence : Prop :=
  EncodesAlone 0x04 .decBlock ∧
  (∀ s : State,
    (s.tblValid = false → exec .decBlock s = .next { s with err := some .tablesNotReady, done := true, phase := .idle }) ∧
    (s.tblValid = true → s.keyValid = false →
      exec .decBlock s = .next { s with err := some .noContext, done := true, phase := .idle }) ∧
    (s.tblValid = true → s.keyValid = true → ∀ (nr : Nat) (first middle last : Block),
      nr = s.ctx.nr.toNat →
      first = addRoundKey s.ctx.w nr (blockOfWords s.ldin) →
      middle = (List.range (nr - 1)).reverse.foldl
        (fun b k => invMixColumns (addRoundKey s.ctx.w (k + 1) (invSubBytes s.tbl (invShiftRows b)))) first →
      last = addRoundKey s.ctx.w 0 (invSubBytes s.tbl (invShiftRows middle)) →
      exec .decBlock s = .next { s with st := last, rc := 0, err := none, done := true, phase := .idle })) ∧
  (∀ (s : State), s.tblValid = true → s.tbl = printedTables →
    s.lkey[0] = 0x00010203 → s.lkey[1] = 0x04050607 → s.lkey[2] = 0x08090A0B → s.lkey[3] = 0x0C0D0E0F →
    s.ldin = #v[0x69C4E0D8, 0x6A7B0430, 0xD8CDB780, 0x70B4C55A] →
    ∃ t u, exec (.keyExpand 16) s = .next t ∧ exec .decBlock t = .next u ∧
      u.st = blockOfHex 0x00112233445566778899AABBCCDDEEFF)

/-- R90: a block command has the effect of its step sequence; they differ in the hidden round counter only (R30; that it keeps
its last value is log entry 14). -/
def Obligations.BlockCommandsEqualTheirStepSequences : Prop :=
  ∀ s : State, s.tblValid = true → s.keyValid = true →
    (∃ t, exec .encBlock s = .next t ∧ runCommands (encSteps s.ctx.nr.toNat) s = .next { t with rc := s.rc } ∧
      t.rdata = s.rdata) ∧
    (∃ t, exec .decBlock s = .next t ∧ runCommands (decSteps s.ctx.nr.toNat) s = .next { t with rc := s.rc } ∧
      t.rdata = s.rdata)

/-- R91: decrypting what ENC_BLOCK leaves gives the block back, and encrypting what DEC_BLOCK leaves does too. -/
def Obligations.DecryptionInvertsEncryption : Prop :=
  ∀ s : State, s.Inv → s.keyValid = true →
    (∃ t u, exec .encBlock s = .next t ∧ exec .decBlock { t with ldin := doutWords t } = .next u ∧
      u.st = blockOfWords s.ldin ∧ doutWords u = s.ldin) ∧
    (∃ t u, exec .decBlock s = .next t ∧ exec .encBlock { t with ldin := doutWords t } = .next u ∧
      u.st = blockOfWords s.ldin ∧ doutWords u = s.ldin)

/-- R93: NOP completes with no effect; issued, it clears a stale ERR or OVR and touches no other register of the core. -/
def Obligations.NopOnlyCompletes : Prop :=
  EncodesAlone 0x00 .nop ∧
  (∀ s : State, exec .nop s = .next { s with err := none, done := true, phase := .idle }) ∧
  (∀ s : State, s.phase = .idle →
    andThen (.next (hostWrite .cmd 0x00000000 s)) coreTurn =
      .next
        { s with
          cmd := 0, lcmd := 0, lkey := s.key, ldin := s.din, err := none, ovr := false, done := true, phase := .idle })

/-! ### What commands write and read -/

/-- R17, R20, R22, R27: which commands write the tables, the context, the state buffer and RDATA; once TBL_VALID = 1 nothing but
the reset input changes the tables or TBL_VALID. -/
def Obligations.OnlyTheseCommandsWrite : Prop :=
  (∀ (i : Instr) (s t : State), exec i s = .next t →
    (t.tbl ≠ s.tbl ∨ t.tblValid ≠ s.tblValid → i = .tblInit) ∧
    (t.ctx ≠ s.ctx → (∃ len, i = .keyExpand len) ∨ i = .release) ∧
    (t.st ≠ s.st →
      i ∈ [.loadState, .subBytes, .invSubBytes, .shiftRows, .invShiftRows, .mixColumns, .invMixColumns, .encBlock,
        .decBlock, .release] ∨ ∃ round, i = .addRoundKey round) ∧
    (t.rdata ≠ s.rdata →
      (∃ sel index, i = .tblRead sel index) ∨ (∃ index, i = .ksRead index) ∨ (∃ a b, i = .gfMul a b) ∨ i = .release)) ∧
  (∀ s t : State, s.tblValid = true → s.agenda.head? ≠ some .reset → step s = .next t →
    t.tbl = s.tbl ∧ t.tblValid = true)

/-- R92, R40, R46: a command's results depend on LCMD, LKEY, LDIN, T, CTX, ST, TBL_VALID and, where it is not rewritten, RDATA:
not on CMD, KEY, DIN, the flags, the round registers or what the host has read. -/
def Obligations.ResultsDependOnlyOnTheSnapshot : Prop :=
  ∀ s s' : State, s'.lcmd = s.lcmd → s'.lkey = s.lkey → s'.ldin = s.ldin → s'.tbl = s.tbl → s'.tblValid = s.tblValid →
    s'.ctx = s.ctx → s'.st = s.st → s'.rdata = s.rdata →
    ∃ t t', perform s = .next t ∧ perform s' = .next t' ∧
      t'.tbl = t.tbl ∧ t'.tblValid = t.tblValid ∧ t'.ctx = t.ctx ∧ t'.st = t.st ∧ t'.rdata = t.rdata ∧ t'.err = t.err

/-- R18: before TBL_INIT has completed the contents of T are unobservable: with any other contents a step ends the same way in
everything but T, and in T too once TBL_VALID = 1. "The same way" takes in what a read of DOUT or RDATA while busy returns: two
states with equal draw counters draw alike in the model (log entry 4, the model's choice; R42 puts the draw under no law). -/
def Obligations.TablesUnobservableBeforeInit : Prop :=
  ∀ (s : State) (other : Tables), s.tblValid = false →
    ∃ left : Tables, step { s with tbl := other } = andThen (step s) (fun t => .next { t with tbl := left }) ∧
      ∀ t, step s = .next t → t.tblValid = true → left = t.tbl

/-- R30: LCMD, LKEY and LDIN are not read while idle, and acceptance writes them; RC and RCON are never read before a command
writes them. The clause on RC and RCON ranges over busy states and takes in what a read of DOUT or RDATA then returns: two states
with equal draw counters draw alike in the model (log entry 4, the model's choice; R42 puts the draw under no law). -/
def Obligations.HiddenRegistersNeverReadBeforeWritten : Prop :=
  (∀ (s : State) (c : Word) (k : Vector Word 8) (d : Vector Word 4), s.phase = .idle →
    ∃ c' k' d',
      step { s with lcmd := c, lkey := k, ldin := d } =
        andThen (step s) (fun t => .next { t with lcmd := c', lkey := k', ldin := d' }) ∧
      ∀ t, step s = .next t → t.phase = .busy → c' = t.lcmd ∧ k' = t.lkey ∧ d' = t.ldin) ∧
  (∀ (s : State) (x y : Byte), ∃ x' y',
    step { s with rc := x, rcon := y } = andThen (step s) (fun t => .next { t with rc := x', rcon := y' }))

/-! ### The register window -/

/-- R24: which register stands at each word-aligned offset, what a read of it returns while the core is idle, which writes reach
KEY and DIN, which are ignored, and that a CMD write issues a command; after reset every register reads 0. -/
def Obligations.RegisterMap : Prop :=
  (∀ s : State, s.phase = .idle →
    readRegister (registerAt 0x00) s = s.cmd ∧ readRegister (registerAt 0x04) s = s.status ∧
    readRegister (registerAt 0x08) s = s.rdata ∧ readRegister (registerAt 0x0C) s = 0 ∧
    (∀ k : Fin 8, readRegister (registerAt (0x10 + 4 * k.val)) s = s.key[k]) ∧
    (∀ k : Fin 4, readRegister (registerAt (0x30 + 4 * k.val)) s = s.din[k]) ∧
    (∀ k : Fin 4, readRegister (registerAt (0x40 + 4 * k.val)) s = columnWord s.st k) ∧
    (∀ off : Nat, 0x50 ≤ off → off ≤ 0xFC → readRegister (registerAt off) s = 0)) ∧
  (∀ (s : State) (v : Word) (k : Fin 8),
    hostWrite (registerAt (0x10 + 4 * k.val)) v s = { s with key := s.key.set k v }) ∧
  (∀ (s : State) (v : Word) (k : Fin 4),
    hostWrite (registerAt (0x30 + 4 * k.val)) v s = { s with din := s.din.set k v }) ∧
  (∀ (s : State) (v : Word) (off : Nat),
    off = 0x04 ∨ off = 0x08 ∨ off = 0x0C ∨ (0x40 ≤ off ∧ off ≤ 0xFC) → hostWrite (registerAt off) v s = s) ∧
  (∀ (s : State) (v : Word), s.phase = .idle →
    (hostWrite (registerAt 0x00) v s).phase = .busy ∧ (hostWrite (registerAt 0x00) v s).lcmd = v ∧
    readRegister (registerAt 0x00) (hostWrite (registerAt 0x00) v s) = v) ∧
  (∀ off : Nat, off < 256 → off % 4 = 0 → readRegister (registerAt off) State.reset = 0)

/-- R33, R34, R35: a supported access reaches the register at its offset from `aes_base`, whole; an access in the window that is
narrower or wider than 32 bits, or misaligned, is refused. -/
def Obligations.WindowAccessesBySupport : Prop :=
  (∀ (s : State) (off : Nat) (v : Word), off < 256 → off % 4 = 0 →
    hostTurn (.read (s.aesBase + off) 4) s = .next (hostRead (registerAt off) s) ∧
    hostTurn (.write (s.aesBase + off) 4 v) s = .next (hostWrite (registerAt off) v s)) ∧
  (∀ (s : State) (off width : Nat) (v : Word), off < 256 → (width ≠ 4 ∨ off % 4 ≠ 0) →
    hostTurn (.read (s.aesBase + off) width) s = .refused .unsupportedAccess ∧
    hostTurn (.write (s.aesBase + off) width v) s = .refused .unsupportedAccess)

/-- The model's choice of log entry 10, under R33 and R48: an address outside the window faults. -/
def Obligations.AccessOutsideTheWindowFaults : Prop :=
  ∀ (s : State) (a : Access), (a.addr < s.aesBase ∨ s.aesBase + 256 ≤ a.addr) → hostTurn a s = .fault .outsideWindow

/-- R36: reads have no side effect (the model notes what was returned, log entry 13, and counts the draws, log entry 4) and are
idempotent but for the drawn ones; reserved offsets read 0 and ignore writes, and so do
the read-only registers. -/
def Obligations.ReadsHaveNoSideEffect : Prop :=
  (∀ (s : State) (r : WindowReg), ∃ (v : Word) (n : Nat),
    hostRead r s = { s with reply := some v, draws := n } ∧
    ((r ≠ .rdata ∧ (∀ k, r ≠ .dout k)) ∨ s.busy = false →
      n = s.draws ∧ hostRead r (hostRead r s) = hostRead r s)) ∧
  (∀ (s : State) (v : Word), readRegister .reserved s = 0 ∧ hostWrite .reserved v s = s ∧ hostWrite .status v s = s ∧
    hostWrite .rdata v s = s ∧ ∀ k, hostWrite (.dout k) v s = s)

/-- R38: a CMD write while idle accepts the command, whether its word decodes or not. -/
def Obligations.CmdWriteWhileIdleIsAccepted : Prop :=
  ∀ (s : State) (v : Word), s.phase = .idle →
    hostTurn (.write s.aesBase 4 v) s =
      .next
        { s with
          lcmd := v, lkey := s.key, ldin := s.din, cmd := v, done := false, err := none, ovr := false, phase := .busy }

/-- R39, R46: a CMD write while busy sets OVR and nothing else, and the command in flight ends as it would have, but for OVR. -/
def Obligations.CmdWriteWhileBusyIsDropped : Prop :=
  ∀ (s : State) (v : Word), s.phase = .busy →
    hostTurn (.write s.aesBase 4 v) s = .next { s with ovr := true } ∧
    coreTurn { s with ovr := true } = andThen (coreTurn s) (fun t => .next { t with ovr := true })

/-- R40: writes to KEY and DIN take effect at once, at any time, and do not touch the command in flight. -/
def Obligations.KeyAndDinWritesTakeEffectAtOnce : Prop :=
  (∀ (s : State) (v : Word) (k : Fin 8), ∃ t, hostTurn (.write (s.aesBase + (0x10 + 4 * k.val)) 4 v) s = .next t ∧
    t.key[k] = v ∧ (∀ j : Fin 8, j ≠ k → t.key[j] = s.key[j]) ∧ t = { s with key := t.key }) ∧
  (∀ (s : State) (v : Word) (k : Fin 4), ∃ t, hostTurn (.write (s.aesBase + (0x30 + 4 * k.val)) 4 v) s = .next t ∧
    t.din[k] = v ∧ (∀ j : Fin 4, j ≠ k → t.din[j] = s.din[j]) ∧ t = { s with din := t.din }) ∧
  (∀ (s : State) (key : Vector Word 8) (din : Vector Word 4),
    coreTurn { s with key := key, din := din } = andThen (coreTurn s) (fun t => .next { t with key := key, din := din }))

/-- R41: while a command is in flight STATUS shows BUSY = 1, DONE = 0, ERR = 0 and the values of acceptance in its other fields;
only OVR can change. -/
def Obligations.StatusWhileInFlight : Prop :=
  (∀ (s : State) (v : Word), (s.accept v).status = (s.status &&& 0x000FF00C) ||| 0x00000001) ∧
  (∀ (s t : State) (a : Access), s.phase = .busy → hostTurn a s = .next t →
    t.status = s.status ∨ t.status = s.status ||| 0x00000100) ∧
  (∀ s : State, readRegister .status s = s.status)

/-- R42, with the free value of log entry 4: while busy a read of DOUT or RDATA is a draw; CMD, KEY and DIN read their values. -/
def Obligations.ReadsWhileInFlight : Prop :=
  ∀ s : State, s.phase = .busy →
    readRegister .cmd s = s.cmd ∧ (∀ k, readRegister (.key k) s = s.key[k]) ∧ (∀ k, readRegister (.din k) s = s.din[k]) ∧
    (∀ r, r = .rdata ∨ (∃ k, r = .dout k) →
      hostRead r s = { s with reply := some (Config.busyRead s.draws), draws := s.draws + 1 })

/-! ### Latency -/

/-- R121, R108, R43 with the turns of log entries 1 and 2: a command in flight stays in flight, its snapshot untouched, for
`cmd_latency` host accesses, and completes in the next step. -/
def Obligations.CommandCompletesAfterItsLatency : Prop :=
  ∀ s : State, s.phase = .busy → (∀ turn ∈ s.agenda, turn.plain s.aesBase) →
    (∀ n : Nat, n ≤ cmdLatency s.agenda → ∃ t, runSteps n s = .next t ∧ t.phase = .busy ∧
      t.lcmd = s.lcmd ∧ t.lkey = s.lkey ∧ t.ldin = s.ldin) ∧
    (∃ t, runSteps (cmdLatency s.agenda + 1) s = .next t ∧ t.phase = .idle ∧ t.done = true)

/-- R9, R40, R120: no result depends on the latency. Host accesses that do not write CMD commute with the core step: before it or
after it, the machine ends alike, but for what the reads returned. -/
def Obligations.ResultsDoNotDependOnLatency : Prop :=
  ∀ (s : State) (accesses : List Access), s.phase = .busy →
    (∀ a ∈ accesses, a.supported s.aesBase ∧ ∀ v, a ≠ .write s.aesBase 4 v) →
    ∃ t u, andThen (hostTurns accesses s) coreTurn = .next t ∧ andThen (coreTurn s) (hostTurns accesses) = .next u ∧
      t = { u with reply := t.reply, draws := t.draws }

/-! ### Invariants -/

/-- R32: every turn keeps the invariants I1 to I6. -/
def Obligations.EveryStepKeepsTheInvariants : Prop :=
  ∀ s t : State, s.Inv → step s = .next t → t.Inv

/-- R32, R115: the invariants I1 to I6 hold after reset, and so does what else every step keeps (the aligned window by log
entry 3, the model's choice). -/
def Obligations.InvariantsHoldAtReset : Prop := State.reset.Inv ∧ State.reset.Kept

/-- Every turn keeps what else the model promises: the printed tables once valid (R65, R66), zeros past the schedule (R73), the
latch behind CMD while in flight (R24, R41), no AllocationFailure (R101), the aligned window (R9). -/
def Obligations.EveryStepKeepsTheStores : Prop :=
  ∀ s t : State, s.Inv → s.Kept → step s = .next t → t.Kept
end

