-- ==== Sys2Proof/Laws/Bytes.lean ====
section
/-! SUPPORT. Vectors given entry by entry, blocks by row and column, bytes of words (R11, R12), and the schedule store. -/

namespace Sys2Proof.Machine

@[simp] theorem tab_getElem {α : Type} {n : Nat} (f : Fin n → α) (i : Nat) (h : i < n) : (tab f)[i] = f ⟨i, h⟩ := by
  simp [tab, Vector.getElem_mk]

/-- Two blocks are equal when their cells are (R12). -/
theorem block_ext_cell {a b : Block} (h : ∀ r c : Fin 4, cell a r c = cell b r c) : a = b := by
  apply Vector.ext
  intro i hi
  have := h (rowOf ⟨i, hi⟩) (colOf ⟨i, hi⟩)
  simp only [cell, rowOf, colOf] at this
  have e : 4 * (i / 4) + i % 4 = i := by omega
  simpa only [e] using this

@[simp] theorem cell_blockOf (f : Fin 4 → Fin 4 → Byte) (r c : Fin 4) : cell (blockOf f) r c = f r c := by
  have hr : (4 * c.val + r.val) % 4 = r.val := by omega
  have hc : (4 * c.val + r.val) / 4 = c.val := by omega
  simp [cell, blockOf, rowOf, colOf, hr, hc]

/-- A bit of an appended pair of bit vectors, at any widths. -/
theorem getLsbD_append_any {p q : Nat} (x : BitVec p) (y : BitVec q) (i : Nat) :
    (x ++ y).getLsbD i = if i < q then y.getLsbD i else x.getLsbD (i - q) := by
  rw [BitVec.getLsbD_append]

/-- The bits of a word given by its bytes (R11). -/
theorem getLsbD_wordOf (a b c d : Byte) (i : Nat) :
    (wordOf a b c d).getLsbD i =
      if i < 8 then d.getLsbD i
      else if i < 16 then c.getLsbD (i - 8)
      else if i < 24 then b.getLsbD (i - 16)
      else a.getLsbD (i - 24) := by
  refine (getLsbD_append_any _ _ _).trans ?_
  rw [getLsbD_append_any, getLsbD_append_any]
  simp only [Nat.sub_sub]
  grind

/-- The bits of a byte of a word (R11). -/
theorem getLsbD_byteOf (w : Word) (r : Fin 4) (i : Nat) :
    (byteOf w r).getLsbD i = (decide (i < 8) && w.getLsbD (24 - 8 * r.val + i)) := by
  simp [byteOf, BitVec.getLsbD_extractLsb']

/-- The bytes of a word given by its bytes (R11). -/
theorem byteOf_wordOf (a b c d : Byte) (r : Fin 4) : byteOf (wordOf a b c d) r = #v[a, b, c, d][r] := by
  apply BitVec.eq_of_getLsbD_eq
  intro i hi
  rw [getLsbD_byteOf, getLsbD_wordOf]
  match r with
  | 0 => simp [hi]; grind
  | 1 => simp [hi]; grind
  | 2 => simp [hi]; grind
  | 3 => simp [hi]

@[simp] theorem byteOf_wordOf_0 (a b c d : Byte) : byteOf (wordOf a b c d) 0 = a := by simp [byteOf_wordOf]
@[simp] theorem byteOf_wordOf_1 (a b c d : Byte) : byteOf (wordOf a b c d) 1 = b := by simp [byteOf_wordOf]
@[simp] theorem byteOf_wordOf_2 (a b c d : Byte) : byteOf (wordOf a b c d) 2 = c := by simp [byteOf_wordOf]
@[simp] theorem byteOf_wordOf_3 (a b c d : Byte) : byteOf (wordOf a b c d) 3 = d := by simp [byteOf_wordOf]

/-- A word is its four bytes, most significant first (R11). -/
@[simp] theorem wordOf_byteOf (w : Word) : wordOf (byteOf w 0) (byteOf w 1) (byteOf w 2) (byteOf w 3) = w := by
  apply BitVec.eq_of_getLsbD_eq
  intro i hi
  rw [getLsbD_wordOf]
  simp [getLsbD_byteOf]
  grind

theorem cell_blockOfWords (v : Vector Word 4) (r c : Fin 4) : cell (blockOfWords v) r c = byteOf v[c] r := by
  simp [blockOfWords]

/-- The columns of a block held in words are the words (R28, R29). -/
@[simp] theorem columnWord_blockOfWords (v : Vector Word 4) (k : Fin 4) : columnWord (blockOfWords v) k = v[k] := by
  simp [columnWord, cell_blockOfWords]

/-- A block is the block held in its columns (R28). -/
theorem blockOfWords_columnWords (s : Block) : blockOfWords (tab fun k => columnWord s k) = s := by
  apply block_ext_cell
  intro r c
  rw [cell_blockOfWords]
  match r with
  | 0 | 1 | 2 | 3 => simp [columnWord]

@[simp] theorem scheduleWord_of_lt (w : Vector Word 60) (i : Nat) (h : i < 60) : scheduleWord w i = w[i] := by
  simp [scheduleWord, h]

theorem scheduleWord_scheduleSet (w : Vector Word 60) (i j : Nat) (v : Word) (hj : j < 60) :
    scheduleWord (scheduleSet w i v) j = if j = i then v else scheduleWord w j := by
  simp only [scheduleWord, scheduleSet, hj, dite_true, Vector.getElem_setIfInBounds]
  grind

end Sys2Proof.Machine
end

