-- ==== Sys2Proof/Laws/State.lean ====
section
/-! SUPPORT. One lemma per field of State and update of it, so that no later proof unfolds a record update. -/

namespace Sys2Proof.Machine

/-! ### `State.complete` (R85, R104) -/

@[simp] theorem complete_tbl (e : Option CmdError) (s : State) : (s.complete e).tbl = s.tbl := rfl
@[simp] theorem complete_ctx (e : Option CmdError) (s : State) : (s.complete e).ctx = s.ctx := rfl
@[simp] theorem complete_st (e : Option CmdError) (s : State) : (s.complete e).st = s.st := rfl
@[simp] theorem complete_cmd (e : Option CmdError) (s : State) : (s.complete e).cmd = s.cmd := rfl
@[simp] theorem complete_rdata (e : Option CmdError) (s : State) : (s.complete e).rdata = s.rdata := rfl
@[simp] theorem complete_key (e : Option CmdError) (s : State) : (s.complete e).key = s.key := rfl
@[simp] theorem complete_din (e : Option CmdError) (s : State) : (s.complete e).din = s.din := rfl
@[simp] theorem complete_done (e : Option CmdError) (s : State) : (s.complete e).done = true := rfl
@[simp] theorem complete_tblValid (e : Option CmdError) (s : State) : (s.complete e).tblValid = s.tblValid := rfl
@[simp] theorem complete_err (e : Option CmdError) (s : State) : (s.complete e).err = e := rfl
@[simp] theorem complete_ovr (e : Option CmdError) (s : State) : (s.complete e).ovr = s.ovr := rfl
@[simp] theorem complete_phase (e : Option CmdError) (s : State) : (s.complete e).phase = .idle := rfl
@[simp] theorem complete_lcmd (e : Option CmdError) (s : State) : (s.complete e).lcmd = s.lcmd := rfl
@[simp] theorem complete_lkey (e : Option CmdError) (s : State) : (s.complete e).lkey = s.lkey := rfl
@[simp] theorem complete_ldin (e : Option CmdError) (s : State) : (s.complete e).ldin = s.ldin := rfl
@[simp] theorem complete_rc (e : Option CmdError) (s : State) : (s.complete e).rc = s.rc := rfl
@[simp] theorem complete_rcon (e : Option CmdError) (s : State) : (s.complete e).rcon = s.rcon := rfl
@[simp] theorem complete_aesBase (e : Option CmdError) (s : State) : (s.complete e).aesBase = s.aesBase := rfl
@[simp] theorem complete_agenda (e : Option CmdError) (s : State) : (s.complete e).agenda = s.agenda := rfl
@[simp] theorem complete_reply (e : Option CmdError) (s : State) : (s.complete e).reply = s.reply := rfl
@[simp] theorem complete_draws (e : Option CmdError) (s : State) : (s.complete e).draws = s.draws := rfl

/-! ### `State.accept` (R38) -/

@[simp] theorem accept_tbl (v : Word) (s : State) : (s.accept v).tbl = s.tbl := rfl
@[simp] theorem accept_ctx (v : Word) (s : State) : (s.accept v).ctx = s.ctx := rfl
@[simp] theorem accept_st (v : Word) (s : State) : (s.accept v).st = s.st := rfl
@[simp] theorem accept_cmd (v : Word) (s : State) : (s.accept v).cmd = v := rfl
@[simp] theorem accept_rdata (v : Word) (s : State) : (s.accept v).rdata = s.rdata := rfl
@[simp] theorem accept_key (v : Word) (s : State) : (s.accept v).key = s.key := rfl
@[simp] theorem accept_din (v : Word) (s : State) : (s.accept v).din = s.din := rfl
@[simp] theorem accept_done (v : Word) (s : State) : (s.accept v).done = false := rfl
@[simp] theorem accept_tblValid (v : Word) (s : State) : (s.accept v).tblValid = s.tblValid := rfl
@[simp] theorem accept_err (v : Word) (s : State) : (s.accept v).err = none := rfl
@[simp] theorem accept_ovr (v : Word) (s : State) : (s.accept v).ovr = false := rfl
@[simp] theorem accept_phase (v : Word) (s : State) : (s.accept v).phase = .busy := rfl
@[simp] theorem accept_lcmd (v : Word) (s : State) : (s.accept v).lcmd = v := rfl
@[simp] theorem accept_lkey (v : Word) (s : State) : (s.accept v).lkey = s.key := rfl
@[simp] theorem accept_ldin (v : Word) (s : State) : (s.accept v).ldin = s.din := rfl
@[simp] theorem accept_rc (v : Word) (s : State) : (s.accept v).rc = s.rc := rfl
@[simp] theorem accept_rcon (v : Word) (s : State) : (s.accept v).rcon = s.rcon := rfl
@[simp] theorem accept_aesBase (v : Word) (s : State) : (s.accept v).aesBase = s.aesBase := rfl
@[simp] theorem accept_agenda (v : Word) (s : State) : (s.accept v).agenda = s.agenda := rfl
@[simp] theorem accept_reply (v : Word) (s : State) : (s.accept v).reply = s.reply := rfl
@[simp] theorem accept_draws (v : Word) (s : State) : (s.accept v).draws = s.draws := rfl

/-! ### `hostRead` (R36) -/

@[simp] theorem hostRead_tbl (r : WindowReg) (s : State) : (hostRead r s).tbl = s.tbl := rfl
@[simp] theorem hostRead_ctx (r : WindowReg) (s : State) : (hostRead r s).ctx = s.ctx := rfl
@[simp] theorem hostRead_st (r : WindowReg) (s : State) : (hostRead r s).st = s.st := rfl
@[simp] theorem hostRead_cmd (r : WindowReg) (s : State) : (hostRead r s).cmd = s.cmd := rfl
@[simp] theorem hostRead_rdata (r : WindowReg) (s : State) : (hostRead r s).rdata = s.rdata := rfl
@[simp] theorem hostRead_key (r : WindowReg) (s : State) : (hostRead r s).key = s.key := rfl
@[simp] theorem hostRead_din (r : WindowReg) (s : State) : (hostRead r s).din = s.din := rfl
@[simp] theorem hostRead_done (r : WindowReg) (s : State) : (hostRead r s).done = s.done := rfl
@[simp] theorem hostRead_tblValid (r : WindowReg) (s : State) : (hostRead r s).tblValid = s.tblValid := rfl
@[simp] theorem hostRead_err (r : WindowReg) (s : State) : (hostRead r s).err = s.err := rfl
@[simp] theorem hostRead_ovr (r : WindowReg) (s : State) : (hostRead r s).ovr = s.ovr := rfl
@[simp] theorem hostRead_phase (r : WindowReg) (s : State) : (hostRead r s).phase = s.phase := rfl
@[simp] theorem hostRead_lcmd (r : WindowReg) (s : State) : (hostRead r s).lcmd = s.lcmd := rfl
@[simp] theorem hostRead_lkey (r : WindowReg) (s : State) : (hostRead r s).lkey = s.lkey := rfl
@[simp] theorem hostRead_ldin (r : WindowReg) (s : State) : (hostRead r s).ldin = s.ldin := rfl
@[simp] theorem hostRead_rc (r : WindowReg) (s : State) : (hostRead r s).rc = s.rc := rfl
@[simp] theorem hostRead_rcon (r : WindowReg) (s : State) : (hostRead r s).rcon = s.rcon := rfl
@[simp] theorem hostRead_aesBase (r : WindowReg) (s : State) : (hostRead r s).aesBase = s.aesBase := rfl
@[simp] theorem hostRead_agenda (r : WindowReg) (s : State) : (hostRead r s).agenda = s.agenda := rfl
@[simp] theorem hostRead_reply (r : WindowReg) (s : State) : (hostRead r s).reply = some (readRegister r s) := rfl
@[simp] theorem hostRead_draws (r : WindowReg) (s : State) : (hostRead r s).draws = if readIsDrawn r s then s.draws + 1 else s.draws := rfl

/-! ### `placeCommand` (log entry 12) -/

@[simp] theorem placeCommand_tbl (v : Word) (s : State) : (placeCommand v s).tbl = s.tbl := rfl
@[simp] theorem placeCommand_ctx (v : Word) (s : State) : (placeCommand v s).ctx = s.ctx := rfl
@[simp] theorem placeCommand_st (v : Word) (s : State) : (placeCommand v s).st = s.st := rfl
@[simp] theorem placeCommand_cmd (v : Word) (s : State) : (placeCommand v s).cmd = v := rfl
@[simp] theorem placeCommand_rdata (v : Word) (s : State) : (placeCommand v s).rdata = s.rdata := rfl
@[simp] theorem placeCommand_key (v : Word) (s : State) : (placeCommand v s).key = s.key := rfl
@[simp] theorem placeCommand_din (v : Word) (s : State) : (placeCommand v s).din = s.din := rfl
@[simp] theorem placeCommand_done (v : Word) (s : State) : (placeCommand v s).done = false := rfl
@[simp] theorem placeCommand_tblValid (v : Word) (s : State) : (placeCommand v s).tblValid = s.tblValid := rfl
@[simp] theorem placeCommand_err (v : Word) (s : State) : (placeCommand v s).err = none := rfl
@[simp] theorem placeCommand_ovr (v : Word) (s : State) : (placeCommand v s).ovr = false := rfl
@[simp] theorem placeCommand_phase (v : Word) (s : State) : (placeCommand v s).phase = .busy := rfl
@[simp] theorem placeCommand_lcmd (v : Word) (s : State) : (placeCommand v s).lcmd = v := rfl
@[simp] theorem placeCommand_lkey (v : Word) (s : State) : (placeCommand v s).lkey = s.key := rfl
@[simp] theorem placeCommand_ldin (v : Word) (s : State) : (placeCommand v s).ldin = s.din := rfl
@[simp] theorem placeCommand_rc (v : Word) (s : State) : (placeCommand v s).rc = s.rc := rfl
@[simp] theorem placeCommand_rcon (v : Word) (s : State) : (placeCommand v s).rcon = s.rcon := rfl
@[simp] theorem placeCommand_aesBase (v : Word) (s : State) : (placeCommand v s).aesBase = s.aesBase := rfl
@[simp] theorem placeCommand_agenda (v : Word) (s : State) : (placeCommand v s).agenda = .core :: s.agenda := rfl
@[simp] theorem placeCommand_reply (v : Word) (s : State) : (placeCommand v s).reply = s.reply := rfl
@[simp] theorem placeCommand_draws (v : Word) (s : State) : (placeCommand v s).draws = s.draws := rfl

/-! ### `resetTurn` (R115) -/

@[simp] theorem resetTurn_tbl (s : State) : (resetTurn s).tbl = State.reset.tbl := rfl
@[simp] theorem resetTurn_ctx (s : State) : (resetTurn s).ctx = State.reset.ctx := rfl
@[simp] theorem resetTurn_st (s : State) : (resetTurn s).st = State.reset.st := rfl
@[simp] theorem resetTurn_cmd (s : State) : (resetTurn s).cmd = State.reset.cmd := rfl
@[simp] theorem resetTurn_rdata (s : State) : (resetTurn s).rdata = State.reset.rdata := rfl
@[simp] theorem resetTurn_key (s : State) : (resetTurn s).key = State.reset.key := rfl
@[simp] theorem resetTurn_din (s : State) : (resetTurn s).din = State.reset.din := rfl
@[simp] theorem resetTurn_done (s : State) : (resetTurn s).done = State.reset.done := rfl
@[simp] theorem resetTurn_tblValid (s : State) : (resetTurn s).tblValid = State.reset.tblValid := rfl
@[simp] theorem resetTurn_err (s : State) : (resetTurn s).err = State.reset.err := rfl
@[simp] theorem resetTurn_ovr (s : State) : (resetTurn s).ovr = State.reset.ovr := rfl
@[simp] theorem resetTurn_phase (s : State) : (resetTurn s).phase = State.reset.phase := rfl
@[simp] theorem resetTurn_lcmd (s : State) : (resetTurn s).lcmd = State.reset.lcmd := rfl
@[simp] theorem resetTurn_lkey (s : State) : (resetTurn s).lkey = State.reset.lkey := rfl
@[simp] theorem resetTurn_ldin (s : State) : (resetTurn s).ldin = State.reset.ldin := rfl
@[simp] theorem resetTurn_rc (s : State) : (resetTurn s).rc = State.reset.rc := rfl
@[simp] theorem resetTurn_rcon (s : State) : (resetTurn s).rcon = State.reset.rcon := rfl
@[simp] theorem resetTurn_aesBase (s : State) : (resetTurn s).aesBase = s.aesBase := rfl
@[simp] theorem resetTurn_agenda (s : State) : (resetTurn s).agenda = s.agenda := rfl
@[simp] theorem resetTurn_reply (s : State) : (resetTurn s).reply = s.reply := rfl
@[simp] theorem resetTurn_draws (s : State) : (resetTurn s).draws = s.draws := rfl

/-! ### Views -/

@[simp] theorem busy_iff (s : State) : s.busy = true ↔ s.phase = .busy := by
  cases h : s.phase <;> simp [State.busy, h]

@[simp] theorem not_busy_iff (s : State) : s.busy = false ↔ s.phase = .idle := by
  cases h : s.phase <;> simp [State.busy, h]

@[simp] theorem keyValid_iff_nk (s : State) : s.keyValid = true ↔ s.ctx.nk ≠ 0 := by simp [State.keyValid]

@[simp] theorem not_keyValid_iff_nk (s : State) : s.keyValid = false ↔ s.ctx.nk = 0 := by simp [State.keyValid]

/-- A host write to CMD while idle is an acceptance (R38). -/
@[simp] theorem issue_idle (v : Word) (s : State) (h : s.phase = .idle) : s.issue v = s.accept v := by
  simp [State.issue, h]

/-- A host write to CMD while busy sets OVR only (R39). -/
@[simp] theorem issue_busy (v : Word) (s : State) (h : s.phase = .busy) : s.issue v = { s with ovr := true } := by
  simp [State.issue, h]

@[simp] theorem hostWrite_cmd (v : Word) (s : State) : hostWrite .cmd v s = s.issue v := rfl
@[simp] theorem hostWrite_key (k : Fin 8) (v : Word) (s : State) :
    hostWrite (.key k) v s = { s with key := s.key.set k v } := rfl
@[simp] theorem hostWrite_din (k : Fin 4) (v : Word) (s : State) :
    hostWrite (.din k) v s = { s with din := s.din.set k v } := rfl
@[simp] theorem hostWrite_status (v : Word) (s : State) : hostWrite .status v s = s := rfl
@[simp] theorem hostWrite_rdata (v : Word) (s : State) : hostWrite .rdata v s = s := rfl
@[simp] theorem hostWrite_dout (k : Fin 4) (v : Word) (s : State) : hostWrite (.dout k) v s = s := rfl
@[simp] theorem hostWrite_reserved (v : Word) (s : State) : hostWrite .reserved v s = s := rfl

end Sys2Proof.Machine
end

