-- ==== Sys2Proof/Laws/Ops.lean ====
section
/-! SUPPORT. What each shared operation, each command and a step can do, said once: later proofs cite these instead of unfolding. -/

namespace Sys2Proof.Machine

/-! ### Completion and checks -/

@[simp] theorem raise_eq (e : CmdError) (s : State) : raise e s = .next (s.complete (some e)) := rfl
@[simp] theorem finish_eq (s : State) : finish s = .next (s.complete none) := rfl

@[simp] theorem needTables_true (s : State) (go : Out) (h : s.tblValid = true) : needTables s go = go := by
  simp [needTables, h]
@[simp] theorem needTables_false (s : State) (go : Out) (h : s.tblValid = false) :
    needTables s go = .next (s.complete (some .tablesNotReady)) := by simp [needTables, h]
@[simp] theorem needContext_true (s : State) (go : Out) (h : s.keyValid = true) : needContext s go = go := by
  simp [needContext, h]
@[simp] theorem needContext_false (s : State) (go : Out) (h : s.keyValid = false) :
    needContext s go = .next (s.complete (some .noContext)) := by simp [needContext, h]
@[simp] theorem needArgument_true (s : State) (go : Out) : needArgument true s go = go := rfl
@[simp] theorem needArgument_false (s : State) (go : Out) :
    needArgument false s go = .next (s.complete (some .badArgument)) := rfl

/-- What `needTables` can answer. -/
theorem needTables_cases (s : State) (go : Out) :
    (s.tblValid = true ∧ needTables s go = go) ∨
    (s.tblValid = false ∧ needTables s go = .next (s.complete (some .tablesNotReady))) := by
  cases h : s.tblValid <;> simp [h]

/-- What `needContext` can answer. -/
theorem needContext_cases (s : State) (go : Out) :
    (s.keyValid = true ∧ needContext s go = go) ∨
    (s.keyValid = false ∧ needContext s go = .next (s.complete (some .noContext))) := by
  cases h : s.keyValid
  · exact .inr ⟨rfl, needContext_false s go h⟩
  · exact .inl ⟨rfl, needContext_true s go h⟩

/-- What `needArgument` can answer. -/
theorem needArgument_cases (ok : Bool) (s : State) (go : Out) :
    (ok = true ∧ needArgument ok s go = go) ∨
    (ok = false ∧ needArgument ok s go = .next (s.complete (some .badArgument))) := by
  cases ok <;> simp

/-! ### The key length (R69) -/

/-- The three valid key lengths, and nothing else (R69). -/
theorem keyWords_cases (len : Byte) :
    (len = 16 ∧ keyWords len = some 4) ∨ (len = 24 ∧ keyWords len = some 6) ∨ (len = 32 ∧ keyWords len = some 8) ∨
    (len ≠ 16 ∧ len ≠ 24 ∧ len ≠ 32 ∧ keyWords len = none) := by
  by_cases h1 : len = 16
  · simp [keyWords, h1]
  · by_cases h2 : len = 24
    · simp [keyWords, h2]
    · by_cases h3 : len = 32
      · simp [keyWords, h3]
      · exact .inr (.inr (.inr ⟨h1, h2, h3, by rw [keyWords, if_neg h1, if_neg h2, if_neg h3]⟩))

/-! ### Commands -/

/-- The two ends of a command: an error that leaves the registers alone, or a success that writes at most T, TBL_VALID, CTX, ST,
RDATA, RC and RCON. -/
inductive CommandEnd (s : State) : Out → Prop where
  | failed (e : CmdError) : CommandEnd s (.next (s.complete (some e)))
  | done (tbl : Tables) (valid : Bool) (ctx : Context) (st : Block) (rdata : Word) (rc rcon : Byte) :
      CommandEnd s
        (.next
          (State.complete none
            { s with tbl := tbl, tblValid := valid, ctx := ctx, st := st, rdata := rdata, rc := rc, rcon := rcon }))

theorem CommandEnd.needTables {s : State} {go : Out} (h : CommandEnd s go) : CommandEnd s (Machine.needTables s go) := by
  obtain ⟨-, e⟩ | ⟨-, e⟩ := needTables_cases s go <;> rw [e]
  exacts [h, .failed _]

theorem CommandEnd.needContext {s : State} {go : Out} (h : CommandEnd s go) : CommandEnd s (Machine.needContext s go) := by
  obtain ⟨-, e⟩ | ⟨-, e⟩ := needContext_cases s go <;> rw [e]
  exacts [h, .failed _]

theorem CommandEnd.needArgument {s : State} {go : Out} (ok : Bool) (h : CommandEnd s go) :
    CommandEnd s (Machine.needArgument ok s go) := by
  cases ok
  exacts [.failed _, h]

/-- Every command has one of the two ends. -/
theorem exec_end (i : Instr) (s : State) : CommandEnd s (exec i s) := by
  cases i with
  | nop => exact .done s.tbl s.tblValid s.ctx s.st s.rdata s.rc s.rcon
  | tblInit =>
    simp only [exec, execTblInit]
    split
    · exact .done s.tbl s.tblValid s.ctx s.st s.rdata s.rc s.rcon
    · exact .done _ _ s.ctx s.st s.rdata s.rc s.rcon
  | keyExpand len =>
    refine .needTables ?_
    split
    · exact .failed _
    · exact .done s.tbl s.tblValid _ s.st s.rdata s.rc _
  | encBlock => exact .needTables (.needContext (.done s.tbl s.tblValid s.ctx _ s.rdata _ s.rcon))
  | decBlock => exact .needTables (.needContext (.done s.tbl s.tblValid s.ctx _ s.rdata _ s.rcon))
  | release => exact .done s.tbl s.tblValid _ _ _ s.rc s.rcon
  | loadState => exact .done s.tbl s.tblValid s.ctx _ s.rdata s.rc s.rcon
  | subBytes => exact .needTables (.done s.tbl s.tblValid s.ctx _ s.rdata s.rc s.rcon)
  | invSubBytes => exact .needTables (.done s.tbl s.tblValid s.ctx _ s.rdata s.rc s.rcon)
  | shiftRows => exact .done s.tbl s.tblValid s.ctx _ s.rdata s.rc s.rcon
  | invShiftRows => exact .done s.tbl s.tblValid s.ctx _ s.rdata s.rc s.rcon
  | mixColumns => exact .done s.tbl s.tblValid s.ctx _ s.rdata s.rc s.rcon
  | invMixColumns => exact .done s.tbl s.tblValid s.ctx _ s.rdata s.rc s.rcon
  | addRoundKey round => exact .needContext (.needArgument _ (.done s.tbl s.tblValid s.ctx _ s.rdata s.rc s.rcon))
  | tblRead sel index =>
    refine .needTables ?_
    split
    · exact .failed _
    · exact .done s.tbl s.tblValid s.ctx s.st _ s.rc s.rcon
  | ksRead index => exact .needContext (.needArgument _ (.done s.tbl s.tblValid s.ctx s.st _ s.rc s.rcon))
  | gfMul a b => exact .done s.tbl s.tblValid s.ctx s.st _ s.rc s.rcon

/-- The core step has one of the two ends, whatever the latched word (R85). -/
theorem perform_end (s : State) : CommandEnd s (perform s) := by
  unfold perform
  split
  · exact exec_end _ s
  · exact .failed _

/-- The core's turn while busy is the core step. -/
@[simp] theorem coreTurn_busy (s : State) (h : s.phase = .busy) : coreTurn s = perform s := by simp [coreTurn, h]

/-- The core's turn while idle changes nothing. -/
@[simp] theorem coreTurn_idle (s : State) (h : s.phase = .idle) : coreTurn s = .next s := by simp [coreTurn, h]

/-- How far `exec` and TBL_VALID can change a context or the tables: the inversion the invariants need (R32). -/
inductive StoresEnd (s : State) : Out → Prop where
  | kept (e : Option CmdError) (st : Block) (rdata : Word) (rc rcon : Byte) :
      StoresEnd s (.next (State.complete e { s with st := st, rdata := rdata, rc := rc, rcon := rcon }))
  | built (h : s.tblValid = false) :
      StoresEnd s (.next (State.complete none { s with tbl := builtTables, tblValid := true }))
  | expanded (nk : BitVec 4) (hk : nk = 4 ∨ nk = 6 ∨ nk = 8) (h : s.tblValid = true) :
      StoresEnd s
        (.next
          (State.complete none
            { s with
              ctx := { w := (expand s.tbl s.lkey nk.toNat).1, nk := nk, nr := nk + 6 }
              rcon := (expand s.tbl s.lkey nk.toNat).2 }))
  | released :
      StoresEnd s
        (.next
          (State.complete none
            { s with
              ctx := { w := Vector.replicate 60 0, nk := 0, nr := 0 }, st := Vector.replicate 16 0, rdata := 0 }))

theorem StoresEnd.failed (s : State) (e : CmdError) : StoresEnd s (.next (s.complete (some e))) :=
  .kept (some e) s.st s.rdata s.rc s.rcon

theorem StoresEnd.needTables {s : State} {go : Out} (h : s.tblValid = true → StoresEnd s go) :
    StoresEnd s (Machine.needTables s go) := by
  obtain ⟨h', e⟩ | ⟨-, e⟩ := needTables_cases s go <;> rw [e]
  exacts [h h', .failed s _]

theorem StoresEnd.needContext {s : State} {go : Out} (h : StoresEnd s go) : StoresEnd s (Machine.needContext s go) := by
  obtain ⟨-, e⟩ | ⟨-, e⟩ := needContext_cases s go <;> rw [e]
  exacts [h, .failed s _]

theorem StoresEnd.needArgument {s : State} {go : Out} (ok : Bool) (h : StoresEnd s go) :
    StoresEnd s (Machine.needArgument ok s go) := by
  cases ok
  exacts [.failed s _, h]

/-- What a command can do to T, TBL_VALID and CTX: nothing, build the tables, expand a valid key, or release. -/
theorem exec_stores (i : Instr) (s : State) : StoresEnd s (exec i s) := by
  cases i with
  | nop => exact .kept none s.st s.rdata s.rc s.rcon
  | tblInit =>
    simp only [exec, execTblInit]
    split
    · exact .kept none s.st s.rdata s.rc s.rcon
    · rename_i h
      exact .built (by simpa using h)
  | keyExpand len =>
    refine .needTables fun h => ?_
    obtain ⟨-, e⟩ | ⟨-, e⟩ | ⟨-, e⟩ | ⟨-, -, -, e⟩ := keyWords_cases len <;> rw [e]
    · exact .expanded 4 (by simp) h
    · exact .expanded 6 (by simp) h
    · exact .expanded 8 (by simp) h
    · exact .failed s _
  | encBlock => exact .needTables fun _ => .needContext (.kept none _ s.rdata _ s.rcon)
  | decBlock => exact .needTables fun _ => .needContext (.kept none _ s.rdata _ s.rcon)
  | release => exact .released
  | loadState => exact .kept none _ s.rdata s.rc s.rcon
  | subBytes => exact .needTables fun _ => .kept none _ s.rdata s.rc s.rcon
  | invSubBytes => exact .needTables fun _ => .kept none _ s.rdata s.rc s.rcon
  | shiftRows => exact .kept none _ s.rdata s.rc s.rcon
  | invShiftRows => exact .kept none _ s.rdata s.rc s.rcon
  | mixColumns => exact .kept none _ s.rdata s.rc s.rcon
  | invMixColumns => exact .kept none _ s.rdata s.rc s.rcon
  | addRoundKey round => exact .needContext (.needArgument _ (.kept none _ s.rdata s.rc s.rcon))
  | tblRead sel index =>
    refine .needTables fun _ => ?_
    split
    · exact .failed s _
    · exact .kept none s.st _ s.rc s.rcon
  | ksRead index => exact .needContext (.needArgument _ (.kept none s.st _ s.rc s.rcon))
  | gfMul a b => exact .kept none s.st _ s.rc s.rcon

theorem perform_stores (s : State) : StoresEnd s (perform s) := by
  unfold perform
  split
  · exact exec_stores _ s
  · exact .failed s _

/-! ### The host's turn and the step -/

/-- What a host write can do (R36, R38, R39, R40). -/
theorem hostWrite_cases (r : WindowReg) (v : Word) (s : State) :
    (s.phase = .idle ∧ hostWrite r v s = s.accept v) ∨
    (s.phase = .busy ∧ hostWrite r v s = { s with ovr := true }) ∨
    (∃ key, hostWrite r v s = { s with key := key }) ∨ (∃ din, hostWrite r v s = { s with din := din }) := by
  cases r with
  | cmd => cases h : s.phase <;> simp [h]
  | key k => exact .inr (.inr (.inl ⟨_, rfl⟩))
  | din k => exact .inr (.inr (.inr ⟨_, rfl⟩))
  | status => exact .inr (.inr (.inl ⟨s.key, rfl⟩))
  | rdata => exact .inr (.inr (.inl ⟨s.key, rfl⟩))
  | dout k => exact .inr (.inr (.inl ⟨s.key, rfl⟩))
  | reserved => exact .inr (.inr (.inl ⟨s.key, rfl⟩))

/-- A host turn that answers a next state: one read or one write of a register. -/
theorem hostTurn_next {a : Access} {s t : State} (h : hostTurn a s = .next t) :
    (∃ r, t = hostRead r s) ∨ (∃ r v, t = hostWrite r v s) := by
  cases a with
  | read addr width =>
    simp only [hostTurn] at h
    split at h
    · cases h
    · split at h
      · exact .inl ⟨_, (Host.Outcome.next.inj h).symm⟩
      · cases h
  | write addr width v =>
    simp only [hostTurn] at h
    split at h
    · cases h
    · split at h
      · exact .inr ⟨_, _, (Host.Outcome.next.inj h).symm⟩
      · cases h

theorem idle_or_busy (s : State) : s.phase = .idle ∨ s.phase = .busy := by cases s.phase <;> simp

/-- What a step that answers a next state did: a host turn, a core step, a reset, or nothing (R43). -/
theorem step_next {s t : State} (h : step s = .next t) :
    (∃ a rest, s.agenda = .host a :: rest ∧ hostTurn a { s with agenda := rest } = .next t) ∨
    (s.phase = .busy ∧ ∃ rest, (s.agenda = .core :: rest ∨ s.agenda = rest ∧ rest = []) ∧
      perform { s with agenda := rest } = .next t) ∨
    (s.phase = .idle ∧ ∃ rest, t = { s with agenda := rest }) ∨
    (∃ rest, s.agenda = .reset :: rest ∧ t = resetTurn { s with agenda := rest }) := by
  unfold step at h
  split at h
  · rename_i he
    obtain hp | hp := idle_or_busy s
    · rw [coreTurn_idle s hp] at h
      exact .inr (.inr (.inl ⟨hp, s.agenda, (Host.Outcome.next.inj h).symm⟩))
    · rw [coreTurn_busy s hp] at h
      exact .inr (.inl ⟨hp, [], .inr ⟨he, rfl⟩, by rw [← he]; exact h⟩)
  · exact .inl ⟨_, _, ‹_›, h⟩
  · rename_i rest he
    obtain hp | hp := idle_or_busy s
    · rw [coreTurn_idle { s with agenda := rest } hp] at h
      exact .inr (.inr (.inl ⟨hp, rest, (Host.Outcome.next.inj h).symm⟩))
    · rw [coreTurn_busy { s with agenda := rest } hp] at h
      exact .inr (.inl ⟨hp, rest, .inl he, h⟩)
  · exact .inr (.inr (.inr ⟨_, ‹_›, (Host.Outcome.next.inj h).symm⟩))

end Sys2Proof.Machine
end

