-- ==== Sys2Proof/Laws/Commute.lean ====
section
/-! SUPPORT. How a change of state that the checks do not see passes through them, and what a core step neither reads nor writes:
the host's side of the machine (R38 to R40, R46). -/

namespace Sys2Proof.Machine

@[simp] theorem andThen_next (t : State) (go : State → Out) : andThen (.next t) go = go t := rfl

/-- `needTables` lets a change `f` through that leaves TBL_VALID alone and passes through completion. -/
theorem needTables_map {f : State → State} {s : State} {go go' : Out} (hv : (f s).tblValid = s.tblValid)
    (hc : ∀ e, (f s).complete e = f (s.complete e)) (h : go' = andThen go fun t => .next (f t)) :
    needTables (f s) go' = andThen (needTables s go) fun t => .next (f t) := by
  obtain ⟨h', e⟩ | ⟨h', e⟩ := needTables_cases s go <;> rw [e]
  · rw [needTables_true _ _ (hv.trans h'), h]
  · rw [needTables_false _ _ (hv.trans h'), hc, andThen_next]

/-- `needContext` lets such a change through. -/
theorem needContext_map {f : State → State} {s : State} {go go' : Out} (hv : (f s).keyValid = s.keyValid)
    (hc : ∀ e, (f s).complete e = f (s.complete e)) (h : go' = andThen go fun t => .next (f t)) :
    needContext (f s) go' = andThen (needContext s go) fun t => .next (f t) := by
  obtain ⟨h', e⟩ | ⟨h', e⟩ := needContext_cases s go <;> rw [e]
  · rw [needContext_true _ _ (hv.trans h'), h]
  · rw [needContext_false _ _ (hv.trans h'), hc, andThen_next]

/-- `needArgument` lets such a change through. -/
theorem needArgument_map {f : State → State} {s : State} {go go' : Out} (ok : Bool)
    (hc : ∀ e, (f s).complete e = f (s.complete e)) (h : go' = andThen go fun t => .next (f t)) :
    needArgument ok (f s) go' = andThen (needArgument ok s go) fun t => .next (f t) := by
  cases ok
  · rw [needArgument_false, needArgument_false, hc, andThen_next]
  · rw [needArgument_true, needArgument_true, h]

/-- The host's side of a state: what no command reads or writes but through the latches. -/
def State.withHostSide (cmd : Word) (key : Vector Word 8) (din : Vector Word 4) (ovr : Bool) (aesBase : Nat)
    (agenda : List Turn) (reply : Option Word) (draws : Nat) (s : State) : State :=
  { s with
    cmd := cmd, key := key, din := din, ovr := ovr, aesBase := aesBase, agenda := agenda, reply := reply, draws := draws }

/-- A command neither reads nor writes the host's side. -/
theorem exec_withHostSide (i : Instr) (c : Word) (k : Vector Word 8) (d : Vector Word 4) (o : Bool) (b : Nat)
    (ag : List Turn) (r : Option Word) (n : Nat) (s : State) :
    exec i (s.withHostSide c k d o b ag r n) = andThen (exec i s) fun t => .next (t.withHostSide c k d o b ag r n) := by
  have hc : ∀ e, (s.withHostSide c k d o b ag r n).complete e = (s.complete e).withHostSide c k d o b ag r n := fun _ => rfl
  cases i with
  | tblInit =>
    simp only [exec, execTblInit, show (s.withHostSide c k d o b ag r n).tblValid = s.tblValid from rfl]
    split <;> rfl
  | keyExpand len =>
    refine needTables_map rfl hc ?_
    cases keyWords len <;> rfl
  | tblRead sel index =>
    refine needTables_map rfl hc ?_
    simp only [show (s.withHostSide c k d o b ag r n).tbl = s.tbl from rfl]
    cases selectedTable sel s.tbl <;> rfl
  | subBytes => exact needTables_map rfl hc rfl
  | invSubBytes => exact needTables_map rfl hc rfl
  | encBlock => exact needTables_map rfl hc (needContext_map rfl hc rfl)
  | decBlock => exact needTables_map rfl hc (needContext_map rfl hc rfl)
  | addRoundKey round => exact needContext_map rfl hc (needArgument_map _ hc rfl)
  | ksRead index => exact needContext_map rfl hc (needArgument_map _ hc rfl)
  | nop => rfl
  | release => rfl
  | loadState => rfl
  | shiftRows => rfl
  | invShiftRows => rfl
  | mixColumns => rfl
  | invMixColumns => rfl
  | gfMul a b' => rfl

/-- A core step neither reads nor writes the host's side (R39, R40, R46). -/
theorem perform_withHostSide (c : Word) (k : Vector Word 8) (d : Vector Word 4) (o : Bool) (b : Nat) (ag : List Turn)
    (r : Option Word) (n : Nat) (s : State) :
    perform (s.withHostSide c k d o b ag r n) = andThen (perform s) fun t => .next (t.withHostSide c k d o b ag r n) := by
  unfold perform
  rw [show (s.withHostSide c k d o b ag r n).lcmd = s.lcmd from rfl]
  split
  · exact exec_withHostSide ..
  · rfl

end Sys2Proof.Machine
end

