-- ==== Sys2Proof/Laws/Decode.lean ====
section
/-! SUPPORT. The fields of a command word (R49), and a word rebuilt from its fields (R55). -/

namespace Sys2Proof

open Machine

/-- A command word is the word of its four fields (R49, R55). -/
theorem commandWord_eq_wordOf (b a opc : Byte) : commandWord b a opc = wordOf 0 b a opc := rfl

theorem fields_eq_byteOf (w : Word) :
    rsvField w = byteOf w 0 ∧ bField w = byteOf w 1 ∧ aField w = byteOf w 2 ∧ opcField w = byteOf w 3 :=
  ⟨rfl, rfl, rfl, rfl⟩

@[simp] theorem opcField_commandWord (b a opc : Byte) : opcField (commandWord b a opc) = opc := byteOf_wordOf_3 0 b a opc
@[simp] theorem aField_commandWord (b a opc : Byte) : aField (commandWord b a opc) = a := byteOf_wordOf_2 0 b a opc
@[simp] theorem bField_commandWord (b a opc : Byte) : bField (commandWord b a opc) = b := byteOf_wordOf_1 0 b a opc
@[simp] theorem rsvField_commandWord (b a opc : Byte) : rsvField (commandWord b a opc) = 0 := byteOf_wordOf_0 0 b a opc

/-- A word with RSV = 0 is assembled from its own fields (R55). -/
theorem commandWord_fields (w : Word) (h : rsvField w = 0) : commandWord (bField w) (aField w) (opcField w) = w := by
  have e := wordOf_byteOf w
  rwa [← (fields_eq_byteOf w).1, h] at e

/-- Decoding an assembled word is looking up its row (R52). -/
theorem decode_commandWord (b a opc : Byte) : decode (commandWord b a opc) = decodeRow opc a b := by
  simp [decode]

end Sys2Proof
end

