-- ==== Sys2Proof/Laws/Encoding.lean ====
section
/-! SUPPORT. What a row of the opcode map can be, the fields of a word under the masks of R52, and the encoding clause of a
command's rule (R51, R52, R53). -/

namespace Sys2Proof

open Machine

/-- What an opcode's row can be: no operand, A only, A and B, or no row (R51, R53). -/
theorem decodeRow_cases (opc : Byte) :
    (∃ i, (∀ a b, decodeRow opc a b = rowNone a b i) ∧ encode i = commandWord 0 0 opc) ∨
    (∃ mk, (∀ a b, decodeRow opc a b = rowA a b mk) ∧ ∀ a, encode (mk a) = commandWord 0 a opc) ∨
    (∃ mk : Byte → Byte → Instr, (∀ a b, decodeRow opc a b = .ok (mk a b)) ∧ ∀ a b, encode (mk a b) = commandWord b a opc) ∨
    (∀ a b, decodeRow opc a b = .error .unassignedOpcode) := by
  by_cases h0 : opc = 0x00
  · subst h0; exact .inl ⟨.nop, fun _ _ => rfl, rfl⟩
  by_cases h1 : opc = 0x01
  · subst h1; exact .inl ⟨.tblInit, fun _ _ => rfl, rfl⟩
  by_cases h2 : opc = 0x02
  · subst h2; exact .inr (.inl ⟨.keyExpand, fun _ _ => rfl, fun _ => rfl⟩)
  by_cases h3 : opc = 0x03
  · subst h3; exact .inl ⟨.encBlock, fun _ _ => rfl, rfl⟩
  by_cases h4 : opc = 0x04
  · subst h4; exact .inl ⟨.decBlock, fun _ _ => rfl, rfl⟩
  by_cases h5 : opc = 0x05
  · subst h5; exact .inl ⟨.release, fun _ _ => rfl, rfl⟩
  by_cases h6 : opc = 0x10
  · subst h6; exact .inl ⟨.loadState, fun _ _ => rfl, rfl⟩
  by_cases h7 : opc = 0x11
  · subst h7; exact .inl ⟨.subBytes, fun _ _ => rfl, rfl⟩
  by_cases h8 : opc = 0x12
  · subst h8; exact .inl ⟨.invSubBytes, fun _ _ => rfl, rfl⟩
  by_cases h9 : opc = 0x13
  · subst h9; exact .inl ⟨.shiftRows, fun _ _ => rfl, rfl⟩
  by_cases h10 : opc = 0x14
  · subst h10; exact .inl ⟨.invShiftRows, fun _ _ => rfl, rfl⟩
  by_cases h11 : opc = 0x15
  · subst h11; exact .inl ⟨.mixColumns, fun _ _ => rfl, rfl⟩
  by_cases h12 : opc = 0x16
  · subst h12; exact .inl ⟨.invMixColumns, fun _ _ => rfl, rfl⟩
  by_cases h13 : opc = 0x17
  · subst h13; exact .inr (.inl ⟨.addRoundKey, fun _ _ => rfl, fun _ => rfl⟩)
  by_cases h14 : opc = 0x20
  · subst h14; exact .inr (.inr (.inl ⟨fun a b => .tblRead b a, fun _ _ => rfl, fun _ _ => rfl⟩))
  by_cases h15 : opc = 0x21
  · subst h15; exact .inr (.inl ⟨.ksRead, fun _ _ => rfl, fun _ => rfl⟩)
  by_cases h16 : opc = 0x22
  · subst h16; exact .inr (.inr (.inl ⟨.gfMul, fun _ _ => rfl, fun _ _ => rfl⟩))
  exact .inr (.inr (.inr fun _ _ => by
    rw [decodeRow, if_neg h0, if_neg h1, if_neg h2, if_neg h3, if_neg h4, if_neg h5, if_neg h6, if_neg h7, if_neg h8,
      if_neg h9, if_neg h10, if_neg h11, if_neg h12, if_neg h13, if_neg h14, if_neg h15, if_neg h16]))

/-- The upper 24 bits of a word are zero exactly when A, B and RSV are (R49). -/
theorem upper24_eq_zero (w : Word) : w.extractLsb' 8 24 = 0 ↔ aField w = 0 ∧ bField w = 0 ∧ rsvField w = 0 := by
  simp only [← BitVec.toNat_inj, aField, bField, rsvField, BitVec.extractLsb'_toNat, Nat.shiftRight_eq_div_pow,
    BitVec.toNat_ofNat, BitVec.ofNat_eq_ofNat]
  have := w.isLt
  omega

/-- The upper 16 bits of a word are zero exactly when B and RSV are (R49). -/
theorem upper16_eq_zero (w : Word) : w.extractLsb' 16 16 = 0 ↔ bField w = 0 ∧ rsvField w = 0 := by
  simp only [← BitVec.toNat_inj, bField, rsvField, BitVec.extractLsb'_toNat, Nat.shiftRight_eq_div_pow, BitVec.toNat_ofNat,
    BitVec.ofNat_eq_ofNat]
  have := w.isLt
  omega

/-- A word is the word of its four fields (R49). -/
theorem word_of_fields (w : Word) : wordOf (rsvField w) (bField w) (aField w) (opcField w) = w := wordOf_byteOf w

/-- `&&&` on words goes byte by byte. -/
theorem wordOf_and (a b c d a' b' c' d' : Byte) :
    wordOf a b c d &&& wordOf a' b' c' d' = wordOf (a &&& a') (b &&& b') (c &&& c') (d &&& d') := by
  apply BitVec.eq_of_getLsbD_eq
  intro i _
  simp only [getLsbD_wordOf, BitVec.getLsbD_and]
  grind

/-- Two words are equal exactly when their bytes are. -/
theorem wordOf_inj (a b c d a' b' c' d' : Byte) :
    wordOf a b c d = wordOf a' b' c' d' ↔ a = a' ∧ b = b' ∧ c = c' ∧ d = d' := by
  constructor
  · intro h
    have e0 := congrArg (byteOf · 0) h
    have e1 := congrArg (byteOf · 1) h
    have e2 := congrArg (byteOf · 2) h
    have e3 := congrArg (byteOf · 3) h
    simp only [byteOf_wordOf_0, byteOf_wordOf_1, byteOf_wordOf_2, byteOf_wordOf_3] at e0 e1 e2 e3
    exact ⟨e0, e1, e2, e3⟩
  · rintro ⟨rfl, rfl, rfl, rfl⟩
    rfl

/-- A byte under the mask 0xFF is itself. -/
theorem and_ff (x : Byte) : x &&& 0xFF#8 = x := BitVec.and_allOnes

/-- The mask of the rows without operands (R52). -/
theorem masked_none (w : Word) (opc : Byte) :
    w &&& 0xFFFFFFFF = wordOf 0 0 0 opc ↔ rsvField w = 0 ∧ bField w = 0 ∧ aField w = 0 ∧ opcField w = opc := by
  conv => lhs; rw [← word_of_fields w, show (0xFFFFFFFF : Word) = wordOf 0xFF#8 0xFF#8 0xFF#8 0xFF#8 from rfl, wordOf_and,
    wordOf_inj]
  simp only [and_ff]

/-- The mask of the rows with A only (R52). -/
theorem masked_a (w : Word) (opc : Byte) :
    w &&& 0xFFFF00FF = wordOf 0 0 0 opc ↔ rsvField w = 0 ∧ bField w = 0 ∧ opcField w = opc := by
  conv => lhs; rw [← word_of_fields w, show (0xFFFF00FF : Word) = wordOf 0xFF#8 0xFF#8 0#8 0xFF#8 from rfl, wordOf_and,
    wordOf_inj]
  simp only [and_ff, BitVec.and_zero, BitVec.ofNat_eq_ofNat, true_and]

/-- The mask of the rows with A and B (R52). -/
theorem masked_ab (w : Word) (opc : Byte) :
    w &&& 0xFF0000FF = wordOf 0 0 0 opc ↔ rsvField w = 0 ∧ opcField w = opc := by
  conv => lhs; rw [← word_of_fields w, show (0xFF0000FF : Word) = wordOf 0xFF#8 0#8 0#8 0xFF#8 from rfl, wordOf_and,
    wordOf_inj]
  simp only [and_ff, BitVec.and_zero, BitVec.ofNat_eq_ofNat, true_and]

namespace Machine

/-- A word that does not decode completes with IllegalCommand and no other effect (R52). -/
theorem perform_illegal {s : State} (h : ∃ e, decode s.lcmd = .error e) :
    perform s = .next (s.complete (some .illegalCommand)) := by
  obtain ⟨e, he⟩ := h
  simp [perform, he]

/-- The encoding clause of a command without operands, from its row. -/
theorem encodesAlone_of_row {opc : Byte} {i : Instr} (h : ∀ a b, decodeRow opc a b = rowNone a b i) : EncodesAlone opc i := by
  intro s ho
  have hd : decode s.lcmd =
      if rsvField s.lcmd = 0 then rowNone (aField s.lcmd) (bField s.lcmd) i else .error .reservedField := by
    rw [decode, show opcField s.lcmd = opc from ho, h]
  rw [upper24_eq_zero, Ne, upper24_eq_zero]
  constructor <;> intro hz
  · have : decode s.lcmd = .ok i := by simp [hd, hz, rowNone]
    simp [perform, this]
  · refine perform_illegal ?_
    rw [hd, rowNone]
    split_ifs <;> simp_all

/-- The encoding clause of a command with the operand A, from its row. -/
theorem encodesWithA_of_row {opc : Byte} {mk : Byte → Instr} (h : ∀ a b, decodeRow opc a b = rowA a b mk) :
    EncodesWithA opc mk := by
  intro s ho
  have hd : decode s.lcmd =
      if rsvField s.lcmd = 0 then rowA (aField s.lcmd) (bField s.lcmd) mk else .error .reservedField := by
    rw [decode, show opcField s.lcmd = opc from ho, h]
  rw [upper16_eq_zero, Ne, upper16_eq_zero]
  constructor <;> intro hz
  · have : decode s.lcmd = .ok (mk (aField s.lcmd)) := by simp [hd, hz, rowA]
    exact ⟨this, by simp only [perform, this]; rfl⟩
  · refine perform_illegal ?_
    rw [hd, rowA]
    split_ifs <;> simp_all

/-- The encoding clause of a command with the operands A and B, from its row. -/
theorem encodesWithAB_of_row {opc : Byte} {mk : Byte → Byte → Instr} (h : ∀ a b, decodeRow opc a b = .ok (mk a b)) :
    EncodesWithAB opc mk := by
  intro s ho
  have hd : decode s.lcmd =
      if rsvField s.lcmd = 0 then .ok (mk (aField s.lcmd) (bField s.lcmd)) else .error .reservedField := by
    rw [decode, show opcField s.lcmd = opc from ho, h]
  change (rsvField s.lcmd = 0 → _) ∧ (rsvField s.lcmd ≠ 0 → _)
  constructor <;> intro hz
  · rw [if_pos hz] at hd
    exact ⟨hd, by simp only [perform, hd]; rfl⟩
  · exact perform_illegal ⟨_, by rw [hd, if_neg hz]⟩

end Machine

end Sys2Proof
end

