-- ==== Sys2Proof/Laws/Galois.lean ====
section
/-! SUPPORT. Table reads and writes, what the loops of the table generator leave (R60, R63), and that the tables they build are the
printed ones (R65). The loops are not run: each is described by an invariant, and the printed tables are checked against it. -/

namespace Sys2Proof.Machine

/-! ### Table reads and writes -/

@[simp] theorem tableGet_tablePut (t : Table) (x v y : Byte) :
    tableGet (tablePut t x v) y = if y = x then v else tableGet t y := by
  simp only [tableGet, tablePut, Vector.getElem_set, BitVec.toNat_inj, eq_comm (a := x)]

theorem table_ext {a b : Table} (h : ∀ x : Byte, tableGet a x = tableGet b x) : a = b := by
  apply Vector.ext
  intro i hi
  have := h (BitVec.ofNat 8 i)
  simp only [tableGet, BitVec.toNat_ofNat] at this
  simpa only [show i % 2 ^ 8 = i from Nat.mod_eq_of_lt hi] using this

@[simp] theorem tableGet_zeros (x : Byte) : tableGet (Vector.replicate 256 0) x = 0 := by simp [tableGet]

/-- A claim about every byte, from a check of the 256 numbers. -/
theorem forall_byte {P : Byte → Prop} (h : ∀ n : Fin 256, P (BitVec.ofNat 8 n.val)) : ∀ x : Byte, P x := by
  intro x
  have := h ⟨x.toNat, x.isLt⟩
  simpa using this

/-! ### The printed tables -/

/-- An entry of a table printed in rows, read without the table (the checks below read the rows). -/
def rowEntry (rows : List (BitVec 128)) (x : Byte) : Byte := entryOfRows rows x.toNat

theorem tableGet_tableOfRows (rows : List (BitVec 128)) (x : Byte) : tableGet (tableOfRows rows) x = rowEntry rows x := by
  simp [tableGet, tableOfRows, rowEntry]

theorem get_printedLog (x : Byte) : tableGet printedLog x = rowEntry rowsOfLog x := tableGet_tableOfRows _ x
theorem get_printedIlog (x : Byte) : tableGet printedIlog x = rowEntry rowsOfIlog x := tableGet_tableOfRows _ x
theorem get_printedSbox (x : Byte) : tableGet printedSbox x = rowEntry rowsOfSbox x := tableGet_tableOfRows _ x
theorem get_printedIsbox (x : Byte) : tableGet printedIsbox x = rowEntry rowsOfIsbox x := tableGet_tableOfRows _ x

/-! ### The log loop (R60) -/

/-- Entry `k` of the printed antilog table: the power `0x03^k`. -/
def power (k : Nat) : Byte := tableGet printedIlog (BitVec.ofNat 8 k)

theorem power_zero : power 0 = 0x01 := by
  simp only [power, get_printedIlog]
  decide +kernel

theorem power_succ : ∀ k : Fin 254, gfMul (power k.val) 0x03 = power (k.val + 1) := by
  simp only [power, get_printedIlog]
  decide +kernel

theorem power_254 : gfMul (power 254) 0x03 = 0x01 := by
  simp only [power, get_printedIlog]
  decide +kernel

theorem log_power : ∀ k : Fin 255, tableGet printedLog (power k.val) = BitVec.ofNat 8 k.val := by
  simp only [power, get_printedIlog, get_printedLog]
  decide +kernel

theorem power_ne_zero : ∀ k : Fin 255, power k.val ≠ 0 := by
  simp only [power, get_printedIlog]
  decide +kernel

theorem power_log : ∀ x : Byte, x ≠ 0 → (tableGet printedLog x).toNat < 255 ∧ power (tableGet printedLog x).toNat = x := by
  apply forall_byte
  simp only [power, get_printedIlog, get_printedLog]
  decide +kernel

theorem power_inj {j k : Nat} (hj : j < 255) (hk : k < 255) (h : power j = power k) : j = k := by
  have hj' := log_power ⟨j, hj⟩
  have hk' := log_power ⟨k, hk⟩
  simp only [h, hk'] at hj'
  have := congrArg BitVec.toNat hj'
  simp only [BitVec.toNat_ofNat] at this
  omega

/-- What `n` turns of the log loop from exponent `i` leave. -/
theorem logLoop_spec (n : Nat) : ∀ (i : Nat) (t : Tables), i + n ≤ 255 →
    (logLoop n (BitVec.ofNat 8 i) (power i) t).sbox = t.sbox ∧
    (logLoop n (BitVec.ofNat 8 i) (power i) t).isbox = t.isbox ∧
    (∀ x : Byte, tableGet (logLoop n (BitVec.ofNat 8 i) (power i) t).ilog x =
      if i ≤ x.toNat ∧ x.toNat < i + n then power x.toNat else tableGet t.ilog x) ∧
    (∀ k, i ≤ k → k < i + n →
      tableGet (logLoop n (BitVec.ofNat 8 i) (power i) t).log (power k) = BitVec.ofNat 8 k) ∧
    (∀ x : Byte, (∀ k, i ≤ k → k < i + n → power k ≠ x) →
      tableGet (logLoop n (BitVec.ofNat 8 i) (power i) t).log x = tableGet t.log x) := by
  induction n with
  | zero =>
    intro i t _
    refine ⟨rfl, rfl, fun x => ?_, fun k h h' => by omega, fun _ _ => rfl⟩
    rw [if_neg (by omega)]
    rfl
  | succ n ih =>
    intro i t hin
    by_cases hlast : n = 0
    · subst hlast
      simp only [logLoop]
      refine ⟨trivial, trivial, fun x => ?_, fun k h h' => ?_, fun x hx => ?_⟩
      · rw [tableGet_tablePut]
        have : x = BitVec.ofNat 8 i ↔ x.toNat = i := by
          rw [← BitVec.toNat_inj]; simp only [BitVec.toNat_ofNat]; omega
        by_cases hx : x.toNat = i
        · rw [if_pos (this.2 hx), if_pos (by omega), hx]
        · rw [if_neg (fun h => hx (this.1 h)), if_neg (by omega)]
      · have : k = i := by omega
        simp [this]
      · rw [tableGet_tablePut, if_neg (fun h => hx i (Nat.le_refl _) (by omega) h.symm)]
    · have hi : BitVec.ofNat 8 i + 1 = BitVec.ofNat 8 (i + 1) := by
        apply BitVec.eq_of_toNat_eq; simp
      have hp : gfMul (power i) 0x03 = power (i + 1) := power_succ ⟨i, by omega⟩
      simp only [logLoop, hi, hp]
      obtain ⟨hs, his, hil, hlog, hold⟩ :=
        ih (i + 1) { t with log := tablePut t.log (power i) (BitVec.ofNat 8 i), ilog := tablePut t.ilog (BitVec.ofNat 8 i) (power i) }
          (by omega)
      refine ⟨hs, his, fun x => ?_, fun k h h' => ?_, fun x hx => ?_⟩
      · rw [hil]
        simp only [tableGet_tablePut]
        have : x = BitVec.ofNat 8 i ↔ x.toNat = i := by
          rw [← BitVec.toNat_inj]; simp only [BitVec.toNat_ofNat]; omega
        by_cases hx : x.toNat = i
        · rw [if_neg (by omega), if_pos (this.2 hx), if_pos (by omega), hx]
        · rw [if_neg (fun h => hx (this.1 h))]
          by_cases hr : i + 1 ≤ x.toNat ∧ x.toNat < i + 1 + n
          · rw [if_pos hr, if_pos (by omega)]
          · rw [if_neg hr, if_neg (by omega)]
      · by_cases hk : k = i
        · subst hk
          rw [hold]
          · simp
          · intro j hj hj' he
            have := power_inj (by omega) (by omega) he
            omega
        · exact hlog k (by omega) (by omega)
      · rw [hold x (fun k h h' => hx k (by omega) (by omega)), tableGet_tablePut,
          if_neg (fun h => hx i (Nat.le_refl _) (by omega) h.symm)]

/-- The log and antilog tables as the loop of R60 leaves them. -/
theorem builtLogs :
    logLoop 255 0x00 0x01 clearedTables =
      { log := printedLog, ilog := printedIlog, sbox := clearedTables.sbox, isbox := clearedTables.isbox } := by
  obtain ⟨hs, his, hil, hlog, hold⟩ := logLoop_spec 255 0 clearedTables (by omega)
  rw [power_zero, ← show (0x00 : Byte) = BitVec.ofNat 8 0 from rfl] at hs his hil hlog hold
  have hl : (logLoop 255 0x00 0x01 clearedTables).log = printedLog := by
    apply table_ext
    intro x
    by_cases hx : x = 0
    · subst hx
      rw [hold 0 (fun k _ h' => power_ne_zero ⟨k, by omega⟩), get_printedLog]
      exact (tableGet_zeros 0).trans (by decide +kernel)
    · obtain ⟨hlt, hpow⟩ := power_log x hx
      have := hlog _ (Nat.zero_le _) (by omega : (tableGet printedLog x).toNat < 0 + 255)
      rw [hpow] at this
      rw [this]
      simp
  have hi : (logLoop 255 0x00 0x01 clearedTables).ilog = printedIlog := by
    apply table_ext
    intro x
    have hx := x.isLt
    rw [hil]
    by_cases hr : x.toNat < 255
    · rw [if_pos (by omega)]; simp [power]
    · have : x = 0xFF := by apply BitVec.eq_of_toNat_eq; simp; omega
      rw [if_neg (by omega), this, get_printedIlog]
      exact (tableGet_zeros 0xFF).trans (by decide +kernel)
  exact Tables.ext hl hi hs his

/-! ### The box loop and the patch (R61 to R64) -/

/-- The entry the generic construction gives `a`, over any log and antilog tables. -/
def genericEntry (t : Tables) (a : Byte) : Byte := affine (invOf t a)

/-- What `n` turns of the box loop from `i` leave. -/
theorem boxLoop_spec (n : Nat) : ∀ (i : Nat) (t : Tables), i + n ≤ 256 →
    (boxLoop n (BitVec.ofNat 8 i) t).log = t.log ∧
    (boxLoop n (BitVec.ofNat 8 i) t).ilog = t.ilog ∧
    (∀ x : Byte, tableGet (boxLoop n (BitVec.ofNat 8 i) t).sbox x =
      if i ≤ x.toNat ∧ x.toNat < i + n then genericEntry t x else tableGet t.sbox x) ∧
    (∀ k, i ≤ k → k < i + n →
      (∀ j, k < j → j < i + n → genericEntry t (BitVec.ofNat 8 j) ≠ genericEntry t (BitVec.ofNat 8 k)) →
      tableGet (boxLoop n (BitVec.ofNat 8 i) t).isbox (genericEntry t (BitVec.ofNat 8 k)) = BitVec.ofNat 8 k) ∧
    (∀ y : Byte, (∀ k, i ≤ k → k < i + n → genericEntry t (BitVec.ofNat 8 k) ≠ y) →
      tableGet (boxLoop n (BitVec.ofNat 8 i) t).isbox y = tableGet t.isbox y) := by
  induction n with
  | zero =>
    intro i t _
    refine ⟨rfl, rfl, fun x => ?_, fun k h h' => by omega, fun _ _ => rfl⟩
    rw [if_neg (by omega)]
    rfl
  | succ n ih =>
    intro i t hin
    have hi : BitVec.ofNat 8 i + 1 = BitVec.ofNat 8 (i + 1) := by
      apply BitVec.eq_of_toNat_eq; simp
    simp only [boxLoop, hi]
    have hx : ∀ x : Byte, x = BitVec.ofNat 8 i ↔ x.toNat = i := by
      intro x
      rw [← BitVec.toNat_inj]; simp only [BitVec.toNat_ofNat]; omega
    obtain ⟨hl, hil, hs, hinv, hold⟩ :=
      ih (i + 1)
        { t with
          sbox := tablePut t.sbox (BitVec.ofNat 8 i) (affine (invOf t (BitVec.ofNat 8 i)))
          isbox := tablePut t.isbox (affine (invOf t (BitVec.ofNat 8 i))) (BitVec.ofNat 8 i) }
        (by omega)
    have hsame : ∀ (b c : Table) (a : Byte), genericEntry { t with sbox := b, isbox := c } a = genericEntry t a :=
      fun _ _ _ => rfl
    simp only [hsame] at hs hinv hold
    refine ⟨hl, hil, fun x => ?_, fun k h h' hlast => ?_, fun y hy => ?_⟩
    · rw [hs, tableGet_tablePut]
      by_cases he : x.toNat = i
      · rw [if_neg (by omega), if_pos ((hx x).2 he), if_pos (by omega), (hx x).2 he]
        rfl
      · rw [if_neg (fun h => he ((hx x).1 h))]
        by_cases hr : i + 1 ≤ x.toNat ∧ x.toNat < i + 1 + n
        · rw [if_pos hr, if_pos (by omega)]
        · rw [if_neg hr, if_neg (by omega)]
    · by_cases hk : k = i
      · subst hk
        rw [hold _ (fun j hj hj' => hlast j (by omega) (by omega)), tableGet_tablePut]
        exact if_pos rfl
      · exact hinv k (by omega) (by omega) (fun j hj hj' => hlast j hj (by omega))
    · rw [hold y (fun k hk hk' => hy k (by omega) (by omega)), tableGet_tablePut,
        if_neg (fun h => hy i (Nat.le_refl _) (by omega) h.symm)]

theorem printedIsbox_printedSbox : ∀ x : Byte, tableGet printedIsbox (tableGet printedSbox x) = x := by
  apply forall_byte
  simp only [get_printedSbox, get_printedIsbox]
  decide +kernel

theorem printedSbox_printedIsbox : ∀ y : Byte, tableGet printedSbox (tableGet printedIsbox y) = y := by
  apply forall_byte
  simp only [get_printedSbox, get_printedIsbox]
  decide +kernel

/-- Over the printed logs the generic construction is right everywhere but at 1, whatever `ilog[255]` holds (R63). -/
theorem genericEntry_printed : ∀ a : Byte, a ≠ 0x01 →
    genericEntry { log := printedLog, ilog := printedIlog, sbox := printedSbox, isbox := printedSbox } a =
      tableGet printedSbox a := by
  apply forall_byte
  simp only [genericEntry, invOf, get_printedLog, get_printedIlog, get_printedSbox]
  decide +kernel

/-- Only `inv(1)` reads `ilog[255]` (R61). -/
theorem log_eq_zero : ∀ a : Byte, a ≠ 0 → a ≠ 1 → 255 - tableGet printedLog a ≠ 0xFF := by
  apply forall_byte
  simp only [get_printedLog]
  decide +kernel

/-- The logs with some value in the unwritten entry `ilog[255]`, and empty boxes. -/
def logsWith (v : Byte) : Tables :=
  { log := printedLog, ilog := tablePut printedIlog 0xFF v, sbox := clearedTables.sbox, isbox := clearedTables.isbox }

theorem logsWith_zero : logsWith 0x00 = logLoop 255 0x00 0x01 clearedTables := by
  have : tablePut printedIlog 0xFF 0x00 = printedIlog := by
    apply table_ext
    intro x
    rw [tableGet_tablePut]
    split
    · rename_i h; subst h; simp only [get_printedIlog]; decide +kernel
    · rfl
  rw [builtLogs, logsWith, this]

theorem genericEntry_logsWith (v a : Byte) (ha : a ≠ 0x01) : genericEntry (logsWith v) a = tableGet printedSbox a := by
  rw [← genericEntry_printed a ha]
  simp only [genericEntry, invOf, logsWith]
  by_cases h0 : a = 0
  · simp [h0]
  · rw [if_neg h0, if_neg h0, tableGet_tablePut, if_neg (log_eq_zero a h0 ha)]

/-- The forward box before the patch, whatever `ilog[255]` held. -/
theorem genericSbox (v x : Byte) :
    tableGet (boxLoop 256 0x00 (logsWith v)).sbox x =
      if x = 0x01 then genericEntry (logsWith v) 0x01 else tableGet printedSbox x := by
  have hx := x.isLt
  rw [show (0x00 : Byte) = BitVec.ofNat 8 0 from rfl, (boxLoop_spec 256 0 (logsWith v) (by omega)).2.2.1, if_pos (by omega)]
  split
  · rename_i h; rw [h]
  · rename_i h; exact genericEntry_logsWith v x h

/-- The inverse box before the patch, at every value but the three that the entry of 1 can touch. -/
theorem genericIsbox (v y : Byte) (h63 : y ≠ 0x63) (h7c : y ≠ 0x7C) :
    tableGet (boxLoop 256 0x00 (logsWith v)).isbox y = tableGet printedIsbox y := by
  have hy : tableGet printedIsbox y ≠ 0x00 ∧ tableGet printedIsbox y ≠ 0x01 := by
    revert h63 h7c
    revert y
    apply forall_byte
    simp only [get_printedIsbox]
    decide +kernel
  have hlt := (tableGet printedIsbox y).isLt
  have hk : BitVec.ofNat 8 (tableGet printedIsbox y).toNat = tableGet printedIsbox y := by simp
  have he : genericEntry (logsWith v) (tableGet printedIsbox y) = y := by
    rw [genericEntry_logsWith v _ hy.2, printedSbox_printedIsbox]
  have := (boxLoop_spec 256 0 (logsWith v) (by omega)).2.2.2.1 (tableGet printedIsbox y).toNat (Nat.zero_le _) (by omega)
  rw [hk, he] at this
  refine this fun j hj hj' hjy => ?_
  have h1 : BitVec.ofNat 8 j ≠ 0x01 := by
    intro h
    have := congrArg BitVec.toNat h
    have h0 : (tableGet printedIsbox y).toNat ≠ 0 := by
      intro h0
      apply hy.1
      apply BitVec.eq_of_toNat_eq
      simpa using h0
    simp at this
    omega
  rw [genericEntry_logsWith v _ h1] at hjy
  have := congrArg (tableGet printedIsbox) hjy
  rw [printedIsbox_printedSbox] at this
  have := congrArg BitVec.toNat this
  simp at this
  omega

@[simp] theorem patch_log (t : Tables) : (patch t).log = t.log := rfl
@[simp] theorem patch_ilog (t : Tables) : (patch t).ilog = t.ilog := rfl

/-- After the patch both boxes are the printed ones, whatever `ilog[255]` held (R64). -/
theorem patch_boxLoop (v : Byte) :
    (patch (boxLoop 256 0x00 (logsWith v))).sbox = printedSbox ∧
    (patch (boxLoop 256 0x00 (logsWith v))).isbox = printedIsbox := by
  constructor
  · apply table_ext
    intro x
    simp only [patch, tableGet_tablePut, genericSbox]
    split
    · rename_i h; subst h; simp only [get_printedSbox]; decide +kernel
    · rfl
  · apply table_ext
    intro y
    simp only [patch, tableGet_tablePut]
    split
    · rename_i h; subst h; rw [get_printedIsbox]; decide +kernel
    · split
      · rename_i h; subst h; rw [get_printedIsbox]; decide +kernel
      · rename_i h h'; exact genericIsbox v y h h'

/-- The tables TBL_INIT builds are the printed ones (R65). -/
theorem builtTables_eq_printed : builtTables = printedTables := by
  obtain ⟨hs, his⟩ := patch_boxLoop 0x00
  obtain ⟨hl, hil, -, -, -⟩ := boxLoop_spec 256 0 (logsWith 0x00) (by omega)
  rw [← show (0x00 : Byte) = BitVec.ofNat 8 0 from rfl] at hl hil
  have hil' : (logsWith 0x00).ilog = printedIlog := by rw [logsWith_zero, builtLogs]
  have e : builtTables = patch (boxLoop 256 0x00 (logsWith 0x00)) := by
    rw [logsWith_zero, builtTables, genericTables]
  rw [e, printedTables]
  rw [hil'] at hil
  exact Tables.ext ((patch_log _).trans hl) ((patch_ilog _).trans hil) hs his

/-- The three printed entries that the patch writes are right, by the check of the printed table alone. -/
theorem printed_boxes_inverse (t : Tables) (hs : t.sbox = printedSbox)
    (h : ∀ x : Byte, tableGet t.isbox (tableGet t.sbox x) = x) : t.isbox = printedIsbox := by
  apply table_ext
  intro y
  have := h (tableGet printedIsbox y)
  rwa [hs, printedSbox_printedIsbox] at this

end Sys2Proof.Machine
end

