-- ==== Sys2Proof/Laws/KeySchedule.lean ====
section
/-! SUPPORT. The expansion loop: what each word of the schedule is, by R72's equations, and where RCON ends (R71). -/

namespace Sys2Proof.Machine

/-- The round constant as a word has its byte on top (R71). -/
theorem rconWord_eq (x : Byte) : rconWord x = x ++ 0#24 := by
  apply BitVec.eq_of_getLsbD_eq
  intro i hi
  rw [rconWord, getLsbD_wordOf, getLsbD_append_any]
  simp only [BitVec.ofNat_eq_ofNat, BitVec.getLsbD_zero]
  grind

/-- Steps 1 to 3 of R72 for word `i`, when RCON has been used `(i - 1) / nk` times before. -/
theorem expandTemp_rconAt (t : Tables) {nk i : Nat} (hk : 0 < nk) (hi : nk ≤ i) (prev : Word) :
    expandTemp t nk i prev (rconAt ((i - 1) / nk)) = (scheduleTemp t nk i prev, rconAt (i / nk)) := by
  have hlt : 1 ≤ i / nk := (Nat.one_le_div_iff hk).2 hi
  have hdiv := Nat.div_add_mod i nk
  by_cases h0 : i % nk = 0
  · have e : (i - 1) / nk = i / nk - 1 := by
      have hm : nk * (i / nk) = nk * (i / nk - 1) + nk := by
        conv => lhs; rw [show i / nk = i / nk - 1 + 1 by omega, Nat.mul_add, Nat.mul_one]
      have : i - 1 = nk * (i / nk - 1) + (nk - 1) := by omega
      conv => lhs; rw [this, Nat.mul_add_div hk, Nat.div_eq_of_lt (by omega : nk - 1 < nk), Nat.add_zero]
    rw [expandTemp, if_pos h0, scheduleTemp, if_pos h0, rconWord_eq, e]
    congr 1
    conv => rhs; rw [show i / nk = i / nk - 1 + 1 by omega]
    rfl
  · have e : (i - 1) / nk = i / nk := by
      have : i - 1 = nk * (i / nk) + (i % nk - 1) := by omega
      have hlt' := Nat.mod_lt i hk
      rw [this, Nat.mul_add_div hk, Nat.div_eq_of_lt (by omega : i % nk - 1 < nk), Nat.add_zero]
    rw [expandTemp, if_neg h0, scheduleTemp, if_neg h0, e]
    split <;> rfl

/-- The words and the RCON the expansion loop leaves (R72): words it does not reach are kept, the others satisfy R72's equation. -/
theorem expandLoop_spec (t : Tables) {nk : Nat} (hk : 0 < nk) (n : Nat) : ∀ (i : Nat) (w : Vector Word 60),
    nk ≤ i → i + n ≤ 60 →
    (expandLoop t nk n i w (rconAt ((i - 1) / nk))).2 = rconAt ((i + n - 1) / nk) ∧
    (∀ j : Nat, j < 60 → j < i ∨ i + n ≤ j →
      scheduleWord (expandLoop t nk n i w (rconAt ((i - 1) / nk))).1 j = scheduleWord w j) ∧
    (∀ j : Nat, i ≤ j → j < i + n →
      scheduleWord (expandLoop t nk n i w (rconAt ((i - 1) / nk))).1 j =
        scheduleWord (expandLoop t nk n i w (rconAt ((i - 1) / nk))).1 (j - nk) ^^^
          scheduleTemp t nk j (scheduleWord (expandLoop t nk n i w (rconAt ((i - 1) / nk))).1 (j - 1))) := by
  induction n with
  | zero =>
    intro i w _ _
    exact ⟨rfl, fun _ _ _ => rfl, fun j h h' => absurd h (by omega)⟩
  | succ n ih =>
    intro i w hi hn
    obtain ⟨hr, hold, hnew⟩ := ih (i + 1)
      (scheduleSet w i (scheduleWord w (i - nk) ^^^ scheduleTemp t nk i (scheduleWord w (i - 1)))) (by omega) (by omega)
    have e : expandLoop t nk (n + 1) i w (rconAt ((i - 1) / nk)) =
        expandLoop t nk n (i + 1)
          (scheduleSet w i (scheduleWord w (i - nk) ^^^ scheduleTemp t nk i (scheduleWord w (i - 1))))
          (rconAt ((i + 1 - 1) / nk)) := by
      rw [expandLoop, expandTemp_rconAt t hk hi, Nat.add_sub_cancel]
    rw [e]
    refine ⟨by rw [hr, show i + 1 + n - 1 = i + (n + 1) - 1 by omega], fun j hj h => ?_, fun j h h' => ?_⟩
    · rw [hold j hj (by omega), scheduleWord_scheduleSet _ _ _ _ hj, if_neg (by omega)]
    · by_cases hji : j = i
      · subst hji
        rw [hold j (by omega) (by omega), hold (j - nk) (by omega) (by omega), hold (j - 1) (by omega) (by omega),
          scheduleWord_scheduleSet _ _ _ _ (by omega), scheduleWord_scheduleSet _ _ _ _ (by omega),
          scheduleWord_scheduleSet _ _ _ _ (by omega), if_pos rfl, if_neg (by omega), if_neg (by omega)]
      · exact hnew j (by omega) (by omega)

/-- The store the expansion starts from: the key words, then zeros (R72, R73). -/
theorem scheduleWord_keyStore (nk : Nat) (key : Vector Word 8) (j : Nat) (hj : j < 60) :
    scheduleWord (keyStore nk key) j = if h : j < 8 then (if j < nk then key[j] else 0) else 0 := by
  rw [scheduleWord_of_lt _ _ hj]
  simp [keyStore]

/-- Where RCON ends: one use for each multiple of Nk (R71). -/
theorem expand_rcon (t : Tables) (key : Vector Word 8) {nk : Nat} (h : nk = 4 ∨ nk = 6 ∨ nk = 8) :
    (expand t key nk).2 = rconAt ((4 * (nk + 7) - 1) / nk) := by
  have hk : 0 < nk := by omega
  have hs := expandLoop_spec t hk (4 * (nk + 6 + 1) - nk) nk (keyStore nk key) (Nat.le_refl _) (by omega)
  rw [show (nk - 1) / nk = 0 from Nat.div_eq_of_lt (by omega)] at hs
  rw [expand, show (0x01 : Byte) = rconAt 0 from rfl, hs.1]
  congr 2
  omega

/-- The expansion satisfies R72's equations, with zeros past the schedule (R73). -/
theorem expand_isSchedule (t : Tables) (key : Vector Word 8) {nk : Nat} (h : nk = 4 ∨ nk = 6 ∨ nk = 8) :
    IsSchedule t key nk (expand t key nk).1 := by
  have hk : 0 < nk := by omega
  obtain ⟨-, hold, hnew⟩ :=
    expandLoop_spec t hk (4 * (nk + 6 + 1) - nk) nk (keyStore nk key) (Nat.le_refl _) (by omega)
  rw [show (nk - 1) / nk = 0 from Nat.div_eq_of_lt (by omega), show rconAt 0 = 0x01 from rfl] at hold hnew
  refine ⟨fun i hi => ?_, fun i hi hi' => ?_, fun i hi hi' => ?_⟩
  · rw [expand, hold i.val (by omega) (by omega), scheduleWord_keyStore _ _ _ (by omega)]
    simp [hi]
  · exact hnew i hi (by omega)
  · rw [expand, hold i (by omega) (by omega), scheduleWord_keyStore _ _ _ hi', dif_neg (by omega)]

end Sys2Proof.Machine
end

