-- ==== Sys2Proof/Laws/PerInstr.lean ====
section
/-! SUPPORT. One lemma per command: its encoding matches the row of the opcode map that builds it back (R51, R52). -/

namespace Sys2Proof.Laws.EncodesRow

open Sys2Proof.Machine

/-- The word of `i` matches a row of the opcode map, and that row builds `i` from the fields A and B of the word (R52). -/
def Statement (i : Instr) : Prop :=
  ∃ row ∈ opcodeRows, row.hits (encode i) ∧ row.build (aField (encode i)) (bField (encode i)) = i

/-- A command without operands. -/
theorem of_none {i : Instr} {opc : Byte} (he : encode i = commandWord 0 0 opc)
    (hr : ∃ row ∈ opcodeRows, row.mask = 0xFFFFFFFF ∧ row.matchWord = wordOf 0 0 0 opc ∧ row.build 0 0 = i) : Statement i := by
  obtain ⟨row, hmem, hm, hw, hb⟩ := hr
  refine ⟨row, hmem, ?_, by rw [he, aField_commandWord, bField_commandWord, hb]⟩
  rw [OpcodeRow.hits, hm, hw, he, masked_none]
  simp

/-- A command with the operand A. -/
theorem of_a {i : Instr} {a opc : Byte} (he : encode i = commandWord 0 a opc)
    (hr : ∃ row ∈ opcodeRows, row.mask = 0xFFFF00FF ∧ row.matchWord = wordOf 0 0 0 opc ∧ row.build a 0 = i) : Statement i := by
  obtain ⟨row, hmem, hm, hw, hb⟩ := hr
  refine ⟨row, hmem, ?_, by rw [he, aField_commandWord, bField_commandWord, hb]⟩
  rw [OpcodeRow.hits, hm, hw, he, masked_a]
  simp

/-- A command with the operands A and B. -/
theorem of_ab {i : Instr} {a b opc : Byte} (he : encode i = commandWord b a opc)
    (hr : ∃ row ∈ opcodeRows, row.mask = 0xFF0000FF ∧ row.matchWord = wordOf 0 0 0 opc ∧ row.build a b = i) : Statement i := by
  obtain ⟨row, hmem, hm, hw, hb⟩ := hr
  refine ⟨row, hmem, ?_, by rw [he, aField_commandWord, bField_commandWord, hb]⟩
  rw [OpcodeRow.hits, hm, hw, he, masked_ab]
  simp

theorem nop : Statement .nop :=
  of_none rfl ⟨opcodeRows[0], List.getElem_mem _, rfl, rfl, rfl⟩
theorem tblInit : Statement .tblInit :=
  of_none rfl ⟨opcodeRows[1], List.getElem_mem _, rfl, rfl, rfl⟩
theorem keyExpand (len : Byte) : Statement (.keyExpand len) :=
  of_a rfl ⟨opcodeRows[2], List.getElem_mem _, rfl, rfl, rfl⟩
theorem encBlock : Statement .encBlock :=
  of_none rfl ⟨opcodeRows[3], List.getElem_mem _, rfl, rfl, rfl⟩
theorem decBlock : Statement .decBlock :=
  of_none rfl ⟨opcodeRows[4], List.getElem_mem _, rfl, rfl, rfl⟩
theorem release : Statement .release :=
  of_none rfl ⟨opcodeRows[5], List.getElem_mem _, rfl, rfl, rfl⟩
theorem loadState : Statement .loadState :=
  of_none rfl ⟨opcodeRows[6], List.getElem_mem _, rfl, rfl, rfl⟩
theorem subBytes : Statement .subBytes :=
  of_none rfl ⟨opcodeRows[7], List.getElem_mem _, rfl, rfl, rfl⟩
theorem invSubBytes : Statement .invSubBytes :=
  of_none rfl ⟨opcodeRows[8], List.getElem_mem _, rfl, rfl, rfl⟩
theorem shiftRows : Statement .shiftRows :=
  of_none rfl ⟨opcodeRows[9], List.getElem_mem _, rfl, rfl, rfl⟩
theorem invShiftRows : Statement .invShiftRows :=
  of_none rfl ⟨opcodeRows[10], List.getElem_mem _, rfl, rfl, rfl⟩
theorem mixColumns : Statement .mixColumns :=
  of_none rfl ⟨opcodeRows[11], List.getElem_mem _, rfl, rfl, rfl⟩
theorem invMixColumns : Statement .invMixColumns :=
  of_none rfl ⟨opcodeRows[12], List.getElem_mem _, rfl, rfl, rfl⟩
theorem addRoundKey (round : Byte) : Statement (.addRoundKey round) :=
  of_a rfl ⟨opcodeRows[13], List.getElem_mem _, rfl, rfl, rfl⟩
theorem tblRead (sel index : Byte) : Statement (.tblRead sel index) :=
  of_ab rfl ⟨opcodeRows[14], List.getElem_mem _, rfl, rfl, rfl⟩
theorem ksRead (index : Byte) : Statement (.ksRead index) :=
  of_a rfl ⟨opcodeRows[15], List.getElem_mem _, rfl, rfl, rfl⟩
theorem gfMul (a b : Byte) : Statement (.gfMul a b) :=
  of_ab rfl ⟨opcodeRows[16], List.getElem_mem _, rfl, rfl, rfl⟩

end Sys2Proof.Laws.EncodesRow
end

