-- ==== Sys2Proof/Laws/Status.lean ====
section
/-! SUPPORT. The bits of the STATUS word (R26). -/

namespace Sys2Proof.Machine

/-- Every bit of STATUS, by its field (R26). -/
theorem status_getLsbD (s : State) (i : Nat) :
    s.status.getLsbD i =
      if i = 0 then s.busy else if i = 1 then s.done else if i = 2 then s.tblValid else if i = 3 then s.keyValid
      else if i < 8 then (errCode s.err).getLsbD (i - 4) else if i = 8 then s.ovr else if i < 12 then false
      else if i < 16 then s.ctx.nk.getLsbD (i - 12) else if i < 20 then s.ctx.nr.getLsbD (i - 16) else false := by
  simp only [State.status]
  repeat rw [getLsbD_append_any]
  simp only [BitVec.getLsbD_ofBool]
  generalize s.busy = b
  generalize s.done = d
  generalize s.tblValid = t
  generalize s.keyValid = k
  generalize s.ovr = o
  by_cases hi : i < 20
  · interval_cases i <;> simp
  · have h : ¬ i < 1 ∧ ¬ i - 1 < 1 ∧ ¬ i - 1 - 1 < 1 ∧ ¬ i - 1 - 1 - 1 < 1 ∧ ¬ i - 1 - 1 - 1 - 1 < 4 ∧
        ¬ i - 1 - 1 - 1 - 1 - 4 < 1 ∧ ¬ i - 1 - 1 - 1 - 1 - 4 - 1 < 3 ∧ ¬ i - 1 - 1 - 1 - 1 - 4 - 1 - 3 < 4 ∧
        ¬ i - 1 - 1 - 1 - 1 - 4 - 1 - 3 - 4 < 4 := by omega
    have h' : i ≠ 0 ∧ i ≠ 1 ∧ i ≠ 2 ∧ i ≠ 3 ∧ ¬ i < 8 ∧ i ≠ 8 ∧ ¬ i < 12 ∧ ¬ i < 16 := by omega
    simp only [h, h', hi, if_false, BitVec.getLsbD_zero]
/-- STATUS.BUSY, bit 0 (R26). -/
theorem status_bit_busy (s : State) : s.status.getLsbD 0 = s.busy := by rw [status_getLsbD, if_pos rfl]

/-- STATUS.DONE, bit 1 (R26). -/
theorem status_bit_done (s : State) : s.status.getLsbD 1 = s.done := by
  rw [status_getLsbD, if_neg (by decide), if_pos rfl]

end Sys2Proof.Machine
end

