-- ==== Sys2Proof/Tests/Slice0.lean ====
section
/-! SUPPORT. Tests: the well-formedness smoke, decoding of words written out from the spec's encodings, one command per test on a
small state with the results of 95_test_vectors.md, and a witness for the hypotheses of every statement. -/

namespace Sys2Proof.Tests

open Sys2Proof Sys2Proof.Machine

/-! ### Well-formedness (R52, R53): a good word, and one that each check refuses -/

theorem test_wf_word : wordWellFormed 0x00835722 = true := by decide
theorem test_ill_rsv : wordWellFormed 0x01835722 = false := by decide
theorem test_ill_opcode : wordWellFormed 0x00000006 = false := by decide
theorem test_ill_opcode_top : wordWellFormed 0x000000FF = false := by decide
theorem test_ill_field_a : wordWellFormed 0x00000113 = false := by decide
theorem test_ill_field_b : wordWellFormed 0x00011002 = false := by decide
theorem test_wf_instr : (Instr.tblRead 255 255).wellFormed = true := by decide

/-! ### Decoding: bits written out field by field, RSV B A OPC (R49, R51, 95_test_vectors.md) -/

theorem test_decode_nop : decode 0b00000000_00000000_00000000_00000000 = .ok .nop := by decide
theorem test_decode_tblInit : decode 0b00000000_00000000_00000000_00000001 = .ok .tblInit := by decide
theorem test_decode_keyExpand : decode 0b00000000_00000000_00010000_00000010 = .ok (.keyExpand 16) := by decide
theorem test_decode_encBlock : decode 0b00000000_00000000_00000000_00000011 = .ok .encBlock := by decide
theorem test_decode_decBlock : decode 0b00000000_00000000_00000000_00000100 = .ok .decBlock := by decide
theorem test_decode_release : decode 0b00000000_00000000_00000000_00000101 = .ok .release := by decide
theorem test_decode_loadState : decode 0b00000000_00000000_00000000_00010000 = .ok .loadState := by decide
theorem test_decode_subBytes : decode 0b00000000_00000000_00000000_00010001 = .ok .subBytes := by decide
theorem test_decode_invSubBytes : decode 0b00000000_00000000_00000000_00010010 = .ok .invSubBytes := by decide
theorem test_decode_shiftRows : decode 0b00000000_00000000_00000000_00010011 = .ok .shiftRows := by decide
theorem test_decode_invShiftRows : decode 0b00000000_00000000_00000000_00010100 = .ok .invShiftRows := by decide
theorem test_decode_mixColumns : decode 0b00000000_00000000_00000000_00010101 = .ok .mixColumns := by decide
theorem test_decode_invMixColumns : decode 0b00000000_00000000_00000000_00010110 = .ok .invMixColumns := by decide
theorem test_decode_addRoundKey : decode 0b00000000_00000000_00001010_00010111 = .ok (.addRoundKey 10) := by decide
theorem test_decode_tblRead : decode 0b00000000_00000010_01010011_00100000 = .ok (.tblRead 2 0x53) := by decide
theorem test_decode_ksRead : decode 0b00000000_00000000_00101011_00100001 = .ok (.ksRead 43) := by decide
theorem test_decode_gfMul : decode 0b00000000_10000011_01010111_00100010 = .ok (.gfMul 0x57 0x83) := by decide
theorem test_decode_rsv : decode 0x01835722 = .error .reservedField := by decide
theorem test_decode_gaps :
    [0x06, 0x0F, 0x18, 0x1F, 0x23, 0xFF].map decode = List.replicate 6 (.error .unassignedOpcode) := by decide
theorem test_decode_unused : decode 0x00011002 = .error .unusedOperand := by decide

/-! ### States to test on -/

/-- After reset, with the window at a place the test can name. -/
def fresh : State := { State.reset with aesBase := 0x1000 }

/-- The schedule words of the 16-byte key 000102..0f (95_test_vectors.md). -/
def scheduleK128 : List Word :=
  [0x00010203, 0x04050607, 0x08090A0B, 0x0C0D0E0F, 0xD6AA74FD, 0xD2AF72FA, 0xDAA678F1, 0xD6AB76FE,
    0xB692CF0B, 0x643DBDF1, 0xBE9BC500, 0x6830B3FE, 0xB6FF744E, 0xD2C2C9BF, 0x6C590CBF, 0x0469BF41] ++
  [0x47F7F7BC, 0x95353E03, 0xF96C32BC, 0xFD058DFD, 0x3CAAA3E8, 0xA99F9DEB, 0x50F3AF57, 0xADF622AA,
    0x5E390F7D, 0xF7A69296, 0xA7553DC1, 0x0AA31F6B, 0x14F9701A, 0xE35FE28C, 0x440ADF4D, 0x4EA9C026] ++
  [0x47438735, 0xA41C65B9, 0xE016BAF4, 0xAEBF7AD2, 0x549932D1, 0xF0855768, 0x1093ED9C, 0xBE2C974E,
    0x13111D7F, 0xE3944A17, 0xF307A78B, 0x4D2B30C5]

/-- The key 000102..0f in KEY0..KEY3. -/
def keyK128 : Vector Word 8 := #v[0x00010203, 0x04050607, 0x08090A0B, 0x0C0D0E0F, 0, 0, 0, 0]

/-- Tables valid, no context, a command in flight with the key and the plaintext of V1 latched. -/
def ready : State :=
  { fresh with
    tbl := printedTables, tblValid := true, phase := .busy, key := keyK128, lkey := keyK128
    ldin := #v[0x00112233, 0x44556677, 0x8899AABB, 0xCCDDEEFF] }

/-- The same with the context of the key 000102..0f, and the state S0 = 000102..0f in ST. -/
def held : State :=
  { ready with
    ctx := { w := tab fun i => scheduleK128.getD i.val 0, nk := 4, nr := 10 }
    st := blockOfHex 0x000102030405060708090A0B0C0D0E0F }

/-- `held` with the command word `w` in flight. -/
def inFlight (w : Word) : State := { held with lcmd := w }

/-- A value of the state after an outcome, if it is a next state. -/
def after {α : Type} (o : Out) (f : State → α) : Option α :=
  match o with
  | .next t => some (f t)
  | .fault _ => none
  | .refused _ => none

/-! ### One command at a time, results from 95_test_vectors.md and the rules' examples -/

theorem test_nop_clears : after (exec .nop { fresh with err := some .invalidKeyLength }) State.status = some 0x00000002 := by
  decide
theorem test_tblInit_status : after (exec .tblInit fresh) State.status = some 0x00000006 := by decide
theorem test_tblInit_again : after (exec .tblInit ready) (fun t => (t.status, tableGet t.tbl.sbox 1)) =
    some (0x00000006, 0x7C) := by decide +kernel
theorem test_keyExpand_invalid : after (exec (.keyExpand 10) ready) State.status = some 0x00000016 := by decide
theorem test_keyExpand_status : after (exec (.keyExpand 32) ready) State.status = some 0x000E800E := by decide
theorem test_encBlock_vector : after (exec .encBlock held) State.st = some (blockOfHex 0x69C4E0D86A7B0430D8CDB78070B4C55A) := by
  decide +kernel
theorem test_encBlock_noContext : after (exec .encBlock ready) State.status = some 0x00000036 := by decide
theorem test_decBlock_vector :
    after (exec .decBlock { held with ldin := #v[0x69C4E0D8, 0x6A7B0430, 0xD8CDB780, 0x70B4C55A] }) State.st =
      some (blockOfHex 0x00112233445566778899AABBCCDDEEFF) := by decide +kernel
theorem test_release : after (exec .release held) (fun t => (t.status, t.st[15], t.key[3])) =
    some (0x00000006, 0, 0x0C0D0E0F) := by decide
theorem test_loadState : after (exec .loadState held) (fun t => columnWord t.st 2) = some 0x8899AABB := by decide
theorem test_subBytes : after (exec .subBytes held) State.st = some (blockOfHex 0x637C777BF26B6FC53001672BFED7AB76) := by
  decide +kernel
theorem test_subBytes_notReady : after (exec .subBytes fresh) State.status = some 0x00000022 := by decide
theorem test_invSubBytes : after (exec .invSubBytes held) State.st = some (blockOfHex 0x52096AD53036A538BF40A39E81F3D7FB) := by
  decide +kernel
theorem test_shiftRows : after (exec .shiftRows held) State.st = some (blockOfHex 0x00050A0F04090E03080D02070C01060B) := by
  decide +kernel
theorem test_shiftRows_fresh : after (exec .shiftRows fresh) State.status = some 0x00000002 := by decide
theorem test_invShiftRows :
    after (exec .invShiftRows held) State.st = some (blockOfHex 0x000D0A0704010E0B0805020F0C090603) := by decide +kernel
theorem test_mixColumns : after (exec .mixColumns held) State.st = some (blockOfHex 0x02070005060304010A0F080D0E0B0C09) := by
  decide +kernel
theorem test_mixColumns_columns :
    mixColumns (blockOfHex 0xDB135345F20A225CD4D4D4D52D26314C) = blockOfHex 0x8E4DA1BC9FDC589DD5D5D7D64D7EBDF8 := by
  decide +kernel
theorem test_invMixColumns :
    after (exec .invMixColumns held) State.st = some (blockOfHex 0x0A0F080D0E0B0C090207000506030401) := by decide +kernel
theorem test_invMixColumns_columns :
    invMixColumns (blockOfHex 0xDB135345F20A225CD4D4D4D52D26314C) = blockOfHex 0x32A41D55AEC36982DDD9DFDAA05050D6 := by
  decide +kernel
theorem test_addRoundKey : after (exec (.addRoundKey 10) held) State.st =
    some (blockOfHex 0x13101F7CE7914C10FB0EAD8041263ECA) := by decide +kernel
theorem test_addRoundKey_range : after (exec (.addRoundKey 11) held) State.status = some 0x000A404E := by decide
theorem test_tblRead : after (exec (.tblRead 2 0x53) ready) State.rdata = some 0x000000ED := by decide +kernel
theorem test_tblRead_sel : after (exec (.tblRead 4 0) ready) State.status = some 0x00000046 := by decide
theorem test_ksRead_last : after (exec (.ksRead 43) held) State.rdata = some 0x4D2B30C5 := by decide
theorem test_ksRead_range : after (exec (.ksRead 44) held) State.status = some 0x000A404E := by decide
theorem test_gfMul : after (exec (.gfMul 0x57 0x83) fresh) (fun t => (t.rdata, t.status)) = some (0x000000C1, 0x00000002) := by
  decide
theorem test_gfMul_reduces : after (exec (.gfMul 0xFF 0xFF) fresh) State.rdata = some 0x00000013 := by decide

/-! ### The window, the turns and the reset input -/

theorem test_busy_status : held.status = 0x000A400D := by decide
theorem test_place : after (step (fresh.withFetchWord 32 0x00835722)) State.rdata = some 0x000000C1 := by decide
theorem test_issue : after (hostTurn (.write 0x1000 4 0x00000006) fresh) State.status = some 0x00000001 := by decide
theorem test_overrun : after (hostTurn (.write 0x1000 4 0x00000000) held) State.status = some 0x000A410D := by decide
theorem test_key_write : after (hostTurn (.write 0x102C 4 0x12345678) held) (fun t => (t.key[7], t.lkey[7])) =
    some (0x12345678, 0) := by decide
theorem test_dout_read : after (hostTurn (.read 0x104C 4) { held with phase := .idle }) State.reply = some (some 0x0C0D0E0F) := by
  decide
theorem test_misaligned : hostTurn (.read 0x1002 4) fresh = .refused .unsupportedAccess := rfl
theorem test_narrow : hostTurn (.read 0x1000 1) fresh = .refused .unsupportedAccess := rfl
theorem test_outside : hostTurn (.read 0x1100 4) fresh = .fault .outsideWindow := rfl
theorem test_reset_input : after (step { held with agenda := [.reset] }) State.status = some 0x00000000 := by decide

/-! ### Witnesses: states and operands that meet the hypotheses of the statements

The commands' statements share witnesses. Their encoding clauses: witness_encodesAlone, witness_encodesWithA and
witness_encodesWithAB, one word of each kind for every opcode. Their clauses on tables and context: witness_checks. Their
operands at the ends of their ranges: witness_tblRead, witness_lengths, witness_ksRead, witness_rounds. Their known-answer
clauses: witness_key, witness_tables, witness_cipherText. The sequences of ENC_BLOCK and DEC_BLOCK: witness_sequence,
witness_sequence_back. The columns of MIX_COLUMNS and INV_MIX_COLUMNS: witness_column. Every other witness names its statements.
EveryCommandCompletesWithinItsFrame, PrintedWordsDecode, StatusWordLayout, GfMulProperties, GfMulIsPolynomialProduct,
ByteOrderOfWordsAndBlocks and InvariantsHoldAtReset have no hypotheses. -/

/-- The invariants of R32 hold of a state with a context and a command in flight. -/
theorem held_inv : held.Inv where
  keyValid_iff := by decide
  rounds := by decide
  tablesFirst := by decide
  boxes := fun _ => ⟨rfl, printedIsbox_printedSbox⟩
  busyIsPhase := by decide
  doneIsIdle := by decide

/-- So does what else every step keeps. -/
theorem held_kept : { held with cmd := held.lcmd }.Kept where
  tables := fun _ => rfl
  tail := by decide
  inFlight := by decide
  noAllocationFailure := by decide
  aligned := rfl

/-- ResetInputGivesTheResetValues: each of its clauses. -/
theorem witness_reset :
    { held with agenda := [.reset] }.agenda = .reset :: [] ∧
    { fresh with agenda := [.reset] }.agenda = .reset :: [] ∧ fresh.aesBase = held.aesBase ∧ fresh.reply = held.reply ∧
    fresh.draws = held.draws ∧
    { held with agenda := [.reset, .host (.write 0x1000 4 0)] }.agenda =
      .reset :: .host (.write { held with agenda := [] }.aesBase 4 0) :: [] := by decide

/-- StepRunsTheDecodedCommand: each of its clauses. -/
theorem witness_turns :
    { held with lcmd := 0x00835722, agenda := [.core] }.phase = .busy ∧ decode 0x00835722 = .ok (.gfMul 0x57 0x83) ∧
    (Instr.gfMul 0x57 0x83).wellFormed = true ∧ { held with agenda := [.core] }.agenda = .core :: [] ∧ held.agenda = [] ∧
    { held with agenda := [.host (.read 0x1000 4)] }.agenda = .host (.read 0x1000 4) :: [] ∧
    { fresh with agenda := [.core] }.phase = .idle ∧ { fresh with agenda := [.core] }.agenda = .core :: [] ∧
    fresh.phase = .idle ∧ fresh.agenda = [] := by decide

/-- PlacedCommandRunsNext, at the highest operands. -/
theorem witness_placed : 0x00FFFF22 < 2 ^ 32 ∧ decodeTableWord 32 0x00FFFF22 = some (.gfMul 0xFF 0xFF) := by decide

/-- CoreStepPerformsAndCompletes, CmdWriteWhileIdleIsAccepted, CmdWriteWhileBusyIsDropped, NopOnlyCompletes: busy, idle, a word
that decodes and one that does not. -/
theorem witness_core : held.phase = .busy ∧ fresh.phase = .idle ∧ decode { held with lcmd := 0x00002B21 }.lcmd = .ok (.ksRead 43) ∧
    decode { held with lcmd := 0x00000006 }.lcmd = .error .unassignedOpcode := by decide

/-- DecodeFollowsMatchAndMask: a word that matches a row, and one that matches none. -/
theorem witness_hits : (∃ row ∈ opcodeRows, row.hits 0x00FFFF20) ∧ (∀ row ∈ opcodeRows, ¬ row.hits 0x01000000) := by
  refine ⟨⟨opcodeRows[14], List.getElem_mem (h := by decide), by show (0x00FFFF20#32) &&& 0xFF0000FF = 0x20; decide⟩, ?_⟩
  simp [opcodeRows, OpcodeRow.hits]

/-- DecodeAndEncodeAgree, at the highest operands. -/
theorem witness_roundtrip : (Instr.tblRead 255 255).wellFormed = true ∧ decode 0x00FFFF20 = .ok (.tblRead 255 255) := by decide

/-- IllegalWordsCompleteWithIllegalCommand: each class of R53 at its ends. -/
theorem witness_illegal :
    (inFlight 0x01000000).lcmd.extractLsb' 24 8 ≠ 0 ∧ (inFlight 0xFF000000).lcmd.extractLsb' 24 8 ≠ 0 ∧
    ((inFlight 0x06).lcmd.extractLsb' 0 8).toNat = 0x06 ∧ ((inFlight 0x0F).lcmd.extractLsb' 0 8).toNat = 0x0F ∧
    ((inFlight 0x18).lcmd.extractLsb' 0 8).toNat = 0x18 ∧ ((inFlight 0x1F).lcmd.extractLsb' 0 8).toNat = 0x1F ∧
    0x23 ≤ ((inFlight 0x23).lcmd.extractLsb' 0 8).toNat ∧ 0x23 ≤ ((inFlight 0xFF).lcmd.extractLsb' 0 8).toNat ∧
    ((inFlight 0x00000113).lcmd.extractLsb' 0 8 ∉ [0x02#8, 0x17, 0x20, 0x21, 0x22] ∧
      (inFlight 0x00000113).lcmd.extractLsb' 8 8 ≠ 0) ∧
    ((inFlight 0x00011002).lcmd.extractLsb' 0 8 ∉ [0x20#8, 0x22] ∧
      (inFlight 0x00011002).lcmd.extractLsb' 16 8 ≠ 0) := by decide

/-- FailingCommandWritesOnlyStatus. -/
theorem witness_failing :
    ∃ t, perform { ready with lcmd := 0x00000A02 } = .next t ∧ t.err = some .invalidKeyLength := ⟨_, rfl, rfl⟩

/-- ErrorsFollowCauseAndPriority: each clause. -/
theorem witness_errors :
    (Instr.encBlock.readsTables = true ∧ fresh.tblValid = false) ∧
    (¬ (Instr.encBlock.readsTables = true ∧ ready.tblValid = false) ∧ Instr.encBlock.readsContext = true ∧
      ready.keyValid = false) ∧
    (¬ ((Instr.ksRead 44).readsContext = true ∧ held.keyValid = false) ∧ (Instr.ksRead 44).operandOutOfRange held.ctx.nr.toNat ∧
      ¬ (Instr.ksRead 43).operandOutOfRange held.ctx.nr.toNat ∧ (Instr.addRoundKey 11).operandOutOfRange held.ctx.nr.toNat ∧
      ¬ (Instr.addRoundKey 10).operandOutOfRange held.ctx.nr.toNat ∧ (Instr.tblRead 4 0).operandOutOfRange 0 ∧
      ¬ (Instr.tblRead 3 0).operandOutOfRange 0) ∧
    ((Instr.keyExpand 10).lengthInvalid ∧ ¬ (Instr.keyExpand 16).lengthInvalid) := by
  refine ⟨by decide, by decide, ⟨by decide, ?_⟩, ?_⟩ <;> simp only [Instr.operandOutOfRange, Instr.lengthInvalid] <;> decide

/-- ErrorAndOverrunStayUntilAcceptance: a read while in flight, with OVR set. -/
theorem witness_sticky :
    ∃ t, step { held with ovr := true, agenda := [.host (.read 0x1004 4)] } = .next t ∧
      { held with ovr := true, agenda := [.host (.read 0x1004 4)] }.agenda.head? ≠ some .reset ∧
      ¬ ({ held with ovr := true }.phase = .idle ∧ t.phase = .busy) ∧ t.phase = held.phase :=
  ⟨_, rfl, by decide, by decide, rfl⟩

/-- The two states of the tables, with and without a context, OVR = 0: the clauses of every command's statement, of
LogTablesAreDiscreteLogarithms, TableInverseAndItsCornerCase, WordOperationsAndRoundConstants and
BlockCommandsEqualTheirStepSequences. -/
theorem witness_checks :
    fresh.tblValid = false ∧ ready.tblValid = true ∧ ready.keyValid = false ∧ ready.ovr = false ∧ held.tblValid = true ∧
      held.keyValid = true ∧ held.ovr = false ∧ fresh.keyValid = false := by decide

/-- LogTablesAreDiscreteLogarithms, TableInverseAndItsCornerCase, GenericBoxesBeforeThePatch, PatchRepairsTheBoxes: their bytes. -/
theorem witness_bytes : (1 : Byte) ≠ 0 ∧ (255 : Byte) ≠ 0 ∧ 2 ≤ (2 : Byte).toNat ∧ 2 ≤ (255 : Byte).toNat ∧ (0 : Byte) ≠ 1 ∧
    (0x62 : Byte) ≠ 0x63 ∧ (0x62 : Byte) ≠ 0x7C := by decide

/-- PatchRepairsTheBoxes: the logs of R60, under any name. -/
theorem witness_logs : ∃ logs, logs = logLoop 255 0x00 0x01 clearedTables := ⟨_, rfl⟩

/-- The encoding clause of every command's statement: a word in flight with its unused fields zero, and one without. -/
theorem witness_encodesAlone :
    ∀ opc ∈ [0x00#8, 0x01, 0x03, 0x04, 0x05, 0x10, 0x11, 0x12, 0x13, 0x14, 0x15, 0x16],
      (inFlight (0#24 ++ opc)).lcmd.extractLsb' 0 8 = opc ∧ (inFlight (0#24 ++ opc)).lcmd.extractLsb' 8 24 = 0 ∧
      (inFlight (1#24 ++ opc)).lcmd.extractLsb' 0 8 = opc ∧ (inFlight (1#24 ++ opc)).lcmd.extractLsb' 8 24 ≠ 0 := by decide

theorem witness_encodesWithA :
    ∀ opc ∈ [0x02#8, 0x17, 0x21],
      (inFlight (0x00FF#24 ++ opc)).lcmd.extractLsb' 0 8 = opc ∧
      (inFlight (0x00FF#24 ++ opc)).lcmd.extractLsb' 16 16 = 0 ∧
      (inFlight (0x0100#24 ++ opc)).lcmd.extractLsb' 0 8 = opc ∧
      (inFlight (0x0100#24 ++ opc)).lcmd.extractLsb' 16 16 ≠ 0 := by decide

theorem witness_encodesWithAB :
    ∀ opc ∈ [0x20#8, 0x22],
      (inFlight (0xFFFF#24 ++ opc)).lcmd.extractLsb' 0 8 = opc ∧
      (inFlight (0xFFFF#24 ++ opc)).lcmd.extractLsb' 24 8 = 0 ∧
      (inFlight (0x010000#24 ++ opc)).lcmd.extractLsb' 0 8 = opc ∧
      (inFlight (0x010000#24 ++ opc)).lcmd.extractLsb' 24 8 ≠ 0 := by decide

/-- TblReadReturnsTheSelectedByte: each selector, and the first beyond. -/
theorem witness_tblRead :
    (∀ sel ∈ [0#8, 1, 2, 3], ∃ t : Table,
      sel = 0 ∧ t = held.tbl.log ∨ sel = 1 ∧ t = held.tbl.ilog ∨ sel = 2 ∧ t = held.tbl.sbox ∨ sel = 3 ∧ t = held.tbl.isbox) ∧
    (4 : Byte).toNat > 3 := by
  refine ⟨fun sel h => ?_, by decide⟩
  fin_cases h
  exacts [⟨_, .inl ⟨rfl, rfl⟩⟩, ⟨_, .inr (.inl ⟨rfl, rfl⟩)⟩, ⟨_, .inr (.inr (.inl ⟨rfl, rfl⟩))⟩,
    ⟨_, .inr (.inr (.inr ⟨rfl, rfl⟩))⟩]

/-- ExpansionSatisfiesTheRecurrence, KsReadReturnsTheScheduleWord and the known-answer clauses: the key of V1. -/
theorem witness_key :
    ready.lkey[0] = 0x00010203 ∧ ready.lkey[1] = 0x04050607 ∧ ready.lkey[2] = 0x08090A0B ∧ ready.lkey[3] = 0x0C0D0E0F ∧
    ready.tblValid = true ∧ ready.ldin = #v[0x00112233, 0x44556677, 0x8899AABB, 0xCCDDEEFF] := by decide

/-- The known-answer clauses: the printed tables. -/
theorem witness_tables : ready.tbl = printedTables := rfl

/-- DecBlockRunsTheDecryptSequence: the ciphertext of V1. -/
theorem witness_cipherText :
    { ready with ldin := #v[0x69C4E0D8, 0x6A7B0430, 0xD8CDB780, 0x70B4C55A] }.ldin =
      #v[0x69C4E0D8, 0x6A7B0430, 0xD8CDB780, 0x70B4C55A] := rfl

/-- KeyExpandCreatesTheContext: lengths beside the valid ones, and the valid ones. -/
theorem witness_lengths :
    ((15 : Byte) ≠ 16 ∧ (15 : Byte) ≠ 24 ∧ (15 : Byte) ≠ 32) ∧ ((255 : Byte) ≠ 16 ∧ (255 : Byte) ≠ 24 ∧ (255 : Byte) ≠ 32) ∧
    (16 : Byte).toNat = 4 * 4 ∧ (24 : Byte).toNat = 4 * 6 ∧ (32 : Byte).toNat = 4 * 8 := by decide

/-- KsReadReturnsTheScheduleWord: the last index and the first beyond; a created context and its last key word. -/
theorem witness_ksRead :
    (43 : Byte).toNat < 4 * (held.ctx.nr.toNat + 1) ∧ (44 : Byte).toNat ≥ 4 * (held.ctx.nr.toNat + 1) ∧
    ∃ t, exec (.keyExpand 16) ready = .next t ∧ t.err = none ∧ (3 : Fin 8).val < t.ctx.nk.toNat :=
  ⟨by decide, by decide, _, rfl, rfl, by decide⟩

/-- ReleaseDestroysTheContext. -/
theorem witness_release : ∃ t, exec .release held = .next t := ⟨_, rfl⟩

/-- InvSubBytesReplacesEachByte, RoundPrimitiveLaws, DecryptionInvertsEncryption. -/
theorem witness_inverse : held.Inv ∧ held.tblValid = true ∧ held.keyValid = true ∧ 10 ≤ held.ctx.nr.toNat :=
  ⟨held_inv, by decide, by decide, by decide⟩

/-- The columns of the mixing statements: the zero column has four equal bytes. -/
theorem witness_column : ∃ a0 a1 a2 a3 : Byte,
    cell fresh.st 0 0 = a0 ∧ cell fresh.st 1 0 = a1 ∧ cell fresh.st 2 0 = a2 ∧ cell fresh.st 3 0 = a3 ∧ a1 = a0 ∧ a2 = a0 ∧
      a3 = a0 := ⟨_, _, _, _, rfl, rfl, rfl, rfl, by decide, by decide, by decide⟩

/-- AddRoundKeyAddsTheRoundKey: the last round and the first beyond; a schedule; the printed words. -/
theorem witness_rounds :
    (10 : Byte).toNat ≤ held.ctx.nr.toNat ∧ (11 : Byte).toNat > held.ctx.nr.toNat ∧
    held.ctx.w[0] = 0x00010203 ∧ held.ctx.w[1] = 0x04050607 ∧ held.ctx.w[2] = 0x08090A0B ∧ held.ctx.w[3] = 0x0C0D0E0F ∧
    held.ctx.w[40] = 0x13111D7F ∧ held.ctx.w[41] = 0xE3944A17 ∧ held.ctx.w[42] = 0xF307A78B ∧ held.ctx.w[43] = 0x4D2B30C5 := by
  decide

/-- AddRoundKeyAddsTheRoundKey: a schedule. -/
theorem witness_schedule : 4 ≤ 4 ∧ IsSchedule printedTables keyK128 4 (expand printedTables keyK128 4).1 :=
  ⟨Nat.le_refl 4, expand_isSchedule _ _ (by simp)⟩

/-- The block commands' sequence: its intermediate blocks. -/
theorem witness_sequence : ∃ (nr : Nat) (first middle last : Block), nr = held.ctx.nr.toNat ∧
    first = addRoundKey held.ctx.w 0 (blockOfWords held.ldin) ∧
    middle = (List.range (nr - 1)).foldl
      (fun b k => addRoundKey held.ctx.w (k + 1) (mixColumns (shiftRows (subBytes held.tbl b)))) first ∧
    last = addRoundKey held.ctx.w nr (shiftRows (subBytes held.tbl middle)) := ⟨_, _, _, _, rfl, rfl, rfl, rfl⟩

/-- The same for DEC_BLOCK. -/
theorem witness_sequence_back : ∃ (nr : Nat) (first middle last : Block), nr = held.ctx.nr.toNat ∧
    first = addRoundKey held.ctx.w nr (blockOfWords held.ldin) ∧
    middle = (List.range (nr - 1)).reverse.foldl
      (fun b k => invMixColumns (addRoundKey held.ctx.w (k + 1) (invSubBytes held.tbl (invShiftRows b)))) first ∧
    last = addRoundKey held.ctx.w 0 (invSubBytes held.tbl (invShiftRows middle)) := ⟨_, _, _, _, rfl, rfl, rfl, rfl⟩

/-- OnlyTheseCommandsWrite: a command that changes each store, and a step with valid tables and no reset. -/
theorem witness_writes :
    (∃ t, exec .tblInit fresh = .next t ∧ t.tblValid ≠ fresh.tblValid) ∧
    (∃ t, exec .release held = .next t ∧ t.ctx ≠ held.ctx ∧ t.st ≠ held.st) ∧
    (∃ t, exec (.gfMul 0x57 0x83) held = .next t ∧ t.rdata ≠ held.rdata) ∧
    (∃ t, step held = .next t) ∧ held.agenda.head? ≠ some .reset :=
  ⟨⟨_, rfl, by decide⟩, ⟨_, rfl, by decide, by decide⟩, ⟨_, rfl, by decide⟩, ⟨_, rfl⟩, by decide⟩

/-- ResultsDependOnlyOnTheSnapshot: two states that differ in what does not count. -/
theorem witness_snapshot :
    { held with key := Vector.replicate 8 0, ovr := true }.lcmd = held.lcmd ∧
    { held with key := Vector.replicate 8 0, ovr := true }.lkey = held.lkey ∧
    { held with key := Vector.replicate 8 0, ovr := true }.ldin = held.ldin ∧
    { held with key := Vector.replicate 8 0, ovr := true }.tbl = held.tbl ∧
    { held with key := Vector.replicate 8 0, ovr := true }.tblValid = held.tblValid ∧
    { held with key := Vector.replicate 8 0, ovr := true }.ctx = held.ctx ∧
    { held with key := Vector.replicate 8 0, ovr := true }.st = held.st ∧
    { held with key := Vector.replicate 8 0, ovr := true }.rdata = held.rdata := ⟨rfl, rfl, rfl, rfl, rfl, rfl, rfl, rfl⟩

/-- TablesUnobservableBeforeInit: TBL_INIT in flight. -/
theorem witness_init : ∃ t, step (fresh.withFetchWord 32 0x00000001) = .next t ∧ fresh.tblValid = false ∧ t.tblValid = true :=
  ⟨_, rfl, rfl, rfl⟩

/-- HiddenRegistersNeverReadBeforeWritten: an acceptance from idle. -/
theorem witness_hidden :
    ∃ t, step { fresh with agenda := [.host (.write 0x1000 4 0)] } = .next t ∧ fresh.phase = .idle ∧ t.phase = .busy :=
  ⟨_, rfl, rfl, rfl⟩

/-- RegisterMap and WindowAccessesBySupport at the ends of their ranges. -/
theorem witness_offsets :
    0x50 ≤ 0x50 ∧ 0x50 ≤ 0xFC ∧ 0xFC < 256 ∧ 0xFC % 4 = 0 ∧ 0x40 ≤ 0xFC ∧ 0xFF < 256 ∧ 0xFF % 4 ≠ 0 ∧ (1 : Nat) ≠ 4 ∧
      (8 : Nat) ≠ 4 := by decide

/-- AccessOutsideTheWindowFaults: the addresses next to the window. -/
theorem witness_outside : (Access.read 0xFFF 4).addr < fresh.aesBase ∧ fresh.aesBase + 256 ≤ (Access.read 0x1100 4).addr := by
  decide

/-- ReadsHaveNoSideEffect. -/
theorem witness_reads : (WindowReg.status ≠ .rdata ∧ (∀ k, WindowReg.status ≠ .dout k)) ∧ fresh.busy = false := by decide

/-- KeyAndDinWritesTakeEffectAtOnce, ReadsWhileInFlight: the ends of the banks. -/
theorem witness_banks : (0 : Fin 8) ≠ 7 ∧ (0 : Fin 4) ≠ 3 ∧ (∃ k, WindowReg.dout 3 = .dout k) := ⟨by decide, by decide, 3, rfl⟩

/-- StatusWhileInFlight: a host turn while busy. -/
theorem witness_inFlight : ∃ t, held.phase = .busy ∧ hostTurn (.write 0x1000 4 0) held = .next t := ⟨_, rfl, rfl⟩

/-- CommandCompletesAfterItsLatency, ResultsDoNotDependOnLatency: three accesses, then the core. -/
theorem witness_latency :
    held.phase = .busy ∧
    (∀ turn ∈ [Turn.host (.write 0x1010 4 1), .host (.read 0x1040 4), .host (.write 0x103C 4 2), .core],
      turn.plain held.aesBase) ∧
    3 ≤ cmdLatency [Turn.host (.write 0x1010 4 1), .host (.read 0x1040 4), .host (.write 0x103C 4 2), .core] ∧
    (∀ a ∈ [Access.write 0x1010 4 1, .read 0x1040 4, .write 0x103C 4 2],
      a.supported held.aesBase ∧ ∀ v, a ≠ .write held.aesBase 4 v) := by
  have hb : held.aesBase = 0x1000 := rfl
  refine ⟨rfl, ?_, by decide, ?_⟩ <;>
    simp [hb, Turn.plain, Access.supported, Access.addr, Access.width]

/-- EveryStepKeepsTheInvariants, EveryStepKeepsTheStores. -/
theorem witness_step : ∃ t, { held with cmd := held.lcmd }.Kept ∧ held.Inv ∧ step held = .next t := ⟨_, held_kept, held_inv, rfl⟩

end Sys2Proof.Tests
end

section
/-! PROOFS. Scope (00_scope.md): the byte order of words and blocks, and why no result depends on the latency. -/

namespace Sys2Proof.Machine

/-! ### Byte order (R11, R12, R28) -/

/-- Byte j of column k of the state is byte 4k+j of the block (R28, R37). -/
theorem byteOf_columnWord (s : Block) (k j : Fin 4) : byteOf (columnWord s k) j = s[4 * k.val + j.val] := by
  rw [columnWord, byteOf_wordOf]
  match j with
  | 0 | 1 | 2 | 3 => rfl

/-- Settles O28: the definitions are R11's and R12's equations, and the bytes of a column are those it is made of. -/
theorem byteOrderOfWordsAndBlocks : Obligations.ByteOrderOfWordsAndBlocks :=
  ⟨fun _ => ⟨rfl, rfl, rfl, rfl⟩, fun _ _ _ _ => rfl, fun _ _ _ => rfl, byteOf_columnWord⟩

/-! ### Supported accesses to the window (R33, R34, R35) -/

/-- A supported read answers the value of its register. -/
theorem hostTurn_read_of_supported {addr width : Nat} {s : State} (h : (Access.read addr width).supported s.aesBase) :
    hostTurn (.read addr width) s = .next (hostRead (registerAt (addr - s.aesBase)) s) := by
  obtain ⟨hlow, hhigh, hwidth, haligned⟩ := h
  simp only [Access.addr, Access.width] at hlow hhigh hwidth haligned
  simp [hostTurn, windowOffset, accessSupported, hlow, hhigh, hwidth, haligned]

/-- A supported write writes its register. -/
theorem hostTurn_write_of_supported {addr width : Nat} {v : Word} {s : State}
    (h : (Access.write addr width v).supported s.aesBase) :
    hostTurn (.write addr width v) s = .next (hostWrite (registerAt (addr - s.aesBase)) v s) := by
  obtain ⟨hlow, hhigh, hwidth, haligned⟩ := h
  simp only [Access.addr, Access.width] at hlow hhigh hwidth haligned
  simp [hostTurn, windowOffset, accessSupported, hlow, hhigh, hwidth, haligned]

/-- CMD is the register at offset 0, and at no other (R24). -/
theorem registerAt_eq_cmd_iff (off : Nat) : registerAt off = .cmd ↔ off = 0 := by
  unfold registerAt
  split_ifs <;> simp_all

/-! ### What accesses that do not write CMD do, uniformly in the state (R36, R40) -/

/-- A state with other KEY and DIN banks and another record of reads. -/
def State.withBanks (key : Vector Word 8) (din : Vector Word 4) (reply : Option Word) (draws : Nat) (s : State) : State :=
  { s with key := key, din := din, reply := reply, draws := draws }

/-- With the window at `base`, `go` answers every state, and changes it by one function of KEY and one of DIN, the same
whatever the rest of the state is; beyond that it changes the record of reads only. -/
def WritesBanksOnly (base : Nat) (go : State → Out) : Prop :=
  ∃ (f : Vector Word 8 → Vector Word 8) (g : Vector Word 4 → Vector Word 4), ∀ s : State, s.aesBase = base →
    ∃ reply draws, go s = .next (s.withBanks (f s.key) (g s.din) reply draws)

/-- Doing nothing is such a change. -/
theorem WritesBanksOnly.next (base : Nat) : WritesBanksOnly base .next :=
  ⟨id, id, fun s _ => ⟨s.reply, s.draws, rfl⟩⟩

/-- Two such changes, one after the other, are one. -/
theorem WritesBanksOnly.andThen {base : Nat} {go go' : State → Out} (h : WritesBanksOnly base go)
    (h' : WritesBanksOnly base go') : WritesBanksOnly base fun s => Machine.andThen (go s) go' := by
  obtain ⟨f, g, h⟩ := h
  obtain ⟨f', g', h'⟩ := h'
  refine ⟨f' ∘ f, g' ∘ g, fun s hs => ?_⟩
  obtain ⟨reply, draws, e⟩ := h s hs
  obtain ⟨reply', draws', e'⟩ := h' (s.withBanks (f s.key) (g s.din) reply draws) hs
  exact ⟨reply', draws', (congrArg (Machine.andThen · go') e).trans e'⟩

/-- A write to any register but CMD writes KEY, or DIN, or nothing (R36, R40). -/
theorem hostWrite_writesBanksOnly (base : Nat) {r : WindowReg} (v : Word) (hr : r ≠ .cmd) :
    WritesBanksOnly base fun s => .next (hostWrite r v s) := by
  cases r with
  | cmd => exact absurd rfl hr
  | key k => exact ⟨fun key => key.set k v, id, fun s _ => ⟨s.reply, s.draws, rfl⟩⟩
  | din k => exact ⟨id, fun din => din.set k v, fun s _ => ⟨s.reply, s.draws, rfl⟩⟩
  | status | rdata | dout | reserved => exact .next base

/-- A supported access that does not write CMD writes the banks only. -/
theorem hostTurn_writesBanksOnly {base : Nat} {a : Access} (hs : a.supported base) (hc : ∀ v, a ≠ .write base 4 v) :
    WritesBanksOnly base (hostTurn a) := by
  cases a with
  | read addr width =>
    refine ⟨id, id, fun s hb => ?_⟩
    subst hb
    exact ⟨_, _, hostTurn_read_of_supported hs⟩
  | write addr width v =>
    have hne : registerAt (addr - base) ≠ .cmd := by
      rw [Ne, registerAt_eq_cmd_iff]
      intro h0
      obtain ⟨hlow, -, hwidth, -⟩ := hs
      simp only [Access.addr, Access.width] at hlow hwidth
      exact hc v (by rw [hwidth, show addr = base by omega])
    obtain ⟨f, g, h⟩ := hostWrite_writesBanksOnly base v hne
    refine ⟨f, g, fun s hb => ?_⟩
    subst hb
    rw [hostTurn_write_of_supported hs]
    exact h s rfl

/-- So does a list of such accesses. -/
theorem hostTurns_writesBanksOnly {base : Nat} {accesses : List Access}
    (h : ∀ a ∈ accesses, a.supported base ∧ ∀ v, a ≠ .write base 4 v) : WritesBanksOnly base (hostTurns accesses) := by
  induction accesses with
  | nil => exact .next base
  | cons a rest ih =>
    obtain ⟨⟨hs, hc⟩, hrest⟩ := List.forall_mem_cons.mp h
    exact (hostTurn_writesBanksOnly hs hc).andThen (ih hrest)

/-! ### The core step beside them (R39, R40, R46) -/

/-- Either end of a command answers a state whose host side is the one before it. -/
theorem CommandEnd.keepsHostSide {s : State} {o : Out} (h : CommandEnd s o) :
    ∃ t, o = .next t ∧ t = t.withHostSide s.cmd s.key s.din s.ovr s.aesBase s.agenda s.reply s.draws := by
  cases h with
  | failed e => exact ⟨_, rfl, rfl⟩
  | done => exact ⟨_, rfl, rfl⟩

/-- The core step neither reads nor writes the banks and the record of reads. -/
theorem perform_withBanks {s p : State} (hp : perform s = .next p) (key : Vector Word 8) (din : Vector Word 4)
    (reply : Option Word) (draws : Nat) :
    perform (s.withBanks key din reply draws) = .next (p.withBanks key din reply draws) := by
  obtain ⟨t, ht, hkept⟩ := (perform_end s).keepsHostSide
  obtain rfl : p = t := Host.Outcome.next.inj (hp.symm.trans ht)
  have h := perform_withHostSide s.cmd key din s.ovr s.aesBase s.agenda reply draws s
  rw [hp, andThen_next] at h
  rw [hkept]
  exact h

/-- Settles O57: the accesses change KEY and DIN by functions that see nothing else of the state, and the core step neither
reads nor writes those banks. -/
theorem resultsDoNotDependOnLatency : Obligations.ResultsDoNotDependOnLatency := by
  intro s accesses hbusy hacc
  obtain ⟨f, g, heffect⟩ := hostTurns_writesBanksOnly hacc
  obtain ⟨p, hp, hkept⟩ := (perform_end s).keepsHostSide
  have hkey : p.key = s.key := by rw [hkept]; rfl
  have hdin : p.din = s.din := by rw [hkept]; rfl
  have hbase : p.aesBase = s.aesBase := by rw [hkept]; rfl
  obtain ⟨reply, draws, hbefore⟩ := heffect s rfl
  obtain ⟨reply', draws', hafter⟩ := heffect p hbase
  rw [hkey, hdin] at hafter
  refine ⟨p.withBanks (f s.key) (g s.din) reply draws, p.withBanks (f s.key) (g s.din) reply' draws', ?_, ?_, rfl⟩
  · rw [hbefore, andThen_next, coreTurn_busy, perform_withBanks hp]
    exact hbusy
  · rw [coreTurn_busy s hbusy, hp, andThen_next, hafter]

end Sys2Proof.Machine
end

section
/-! PROOFS. State (10_state.md): what each command writes (R17, R20, R22, R27), what every step keeps (R32), and that reset begins
there. -/

namespace Sys2Proof.Machine

/-! ### A predicate that every step keeps (R43) -/

/-- A predicate survives a step when it does not see KEY, DIN, OVR, the agenda and the record of reads, and survives an
acceptance, a core step, and the reset input if its turn is next. -/
theorem step_keeps {P : State → Prop} {s t : State} (hs : P s) (hstep : step s = .next t)
    (host : ∀ (s : State) key din ovr agenda reply draws, P s →
      P { s with key := key, din := din, ovr := ovr, agenda := agenda, reply := reply, draws := draws })
    (accept : ∀ s v, P s → P (s.accept v))
    (core : ∀ s t, P s → perform s = .next t → P t)
    (reset : ∀ rest, s.agenda = .reset :: rest → P (resetTurn { s with agenda := rest })) : P t := by
  have hrest (rest : List Turn) : P { s with agenda := rest } := host s s.key s.din s.ovr rest s.reply s.draws hs
  obtain ⟨a, rest, -, h⟩ | ⟨-, rest, -, h⟩ | ⟨-, rest, rfl⟩ | ⟨rest, hag, rfl⟩ := step_next hstep
  · obtain ⟨r, rfl⟩ | ⟨r, v, rfl⟩ := hostTurn_next h
    · exact host s s.key s.din s.ovr rest _ _ hs
    · obtain ⟨-, e⟩ | ⟨-, e⟩ | ⟨key, e⟩ | ⟨din, e⟩ := hostWrite_cases r v { s with agenda := rest } <;> rw [e]
      · exact accept _ v (hrest rest)
      · exact host s s.key s.din true rest s.reply s.draws hs
      · exact host s key s.din s.ovr rest s.reply s.draws hs
      · exact host s s.key din s.ovr rest s.reply s.draws hs
  · exact core _ t (hrest rest) h
  · exact hrest rest
  · exact reset rest hag

/-! ### What each command writes (R17, R20, R22, R27) -/

/-- The commands that write ST (R22). -/
def WritesBlock (i : Instr) : Prop :=
  i ∈ [.loadState, .subBytes, .invSubBytes, .shiftRows, .invShiftRows, .mixColumns, .invMixColumns, .encBlock,
    .decBlock, .release] ∨ ∃ round, i = .addRoundKey round

/-- The commands that write RDATA (R27). -/
def WritesRdata (i : Instr) : Prop :=
  (∃ sel index, i = .tblRead sel index) ∨ (∃ index, i = .ksRead index) ∨ (∃ a b, i = .gfMul a b) ∨ i = .release

/-- The ends of the command `i`, each with the stores it writes and why `i` may write them. -/
inductive WritesEnd (i : Instr) (s : State) : Out → Prop where
  | failed (e : CmdError) (he : e ≠ .allocationFailure) : WritesEnd i s (.next (s.complete (some e)))
  | nothing : WritesEnd i s (.next (s.complete none))
  | tables (tbl : Tables) (valid : Bool) (hi : i = .tblInit) :
      WritesEnd i s (.next (State.complete none { s with tbl := tbl, tblValid := valid }))
  | context (ctx : Context) (rcon : Byte) (hi : ∃ len, i = .keyExpand len) :
      WritesEnd i s (.next (State.complete none { s with ctx := ctx, rcon := rcon }))
  | block (st : Block) (rc : Byte) (hi : WritesBlock i) :
      WritesEnd i s (.next (State.complete none { s with st := st, rc := rc }))
  | rdata (rdata : Word) (hi : WritesRdata i) : WritesEnd i s (.next (State.complete none { s with rdata := rdata }))
  | released (ctx : Context) (st : Block) (rdata : Word) (hi : i = .release) :
      WritesEnd i s (.next (State.complete none { s with ctx := ctx, st := st, rdata := rdata }))

theorem WritesEnd.needTables {i : Instr} {s : State} {go : Out} (h : WritesEnd i s go) :
    WritesEnd i s (Machine.needTables s go) := by
  obtain ⟨-, e⟩ | ⟨-, e⟩ := needTables_cases s go <;> rw [e]
  exacts [h, .failed _ (by decide)]

theorem WritesEnd.needContext {i : Instr} {s : State} {go : Out} (h : WritesEnd i s go) :
    WritesEnd i s (Machine.needContext s go) := by
  obtain ⟨-, e⟩ | ⟨-, e⟩ := needContext_cases s go <;> rw [e]
  exacts [h, .failed _ (by decide)]

theorem WritesEnd.needArgument {i : Instr} {s : State} {go : Out} (ok : Bool) (h : WritesEnd i s go) :
    WritesEnd i s (Machine.needArgument ok s go) := by
  cases ok
  exacts [.failed _ (by decide), h]

/-- Every command has one of these ends. -/
theorem exec_writes (i : Instr) (s : State) : WritesEnd i s (exec i s) := by
  cases i with
  | nop => exact .nothing
  | tblInit =>
    simp only [exec, execTblInit]
    split
    exacts [.nothing, .tables _ _ rfl]
  | keyExpand len =>
    refine .needTables ?_
    cases keyWords len
    exacts [.failed _ (by decide), .context _ _ ⟨len, rfl⟩]
  | release => exact .released _ _ _ rfl
  | encBlock | decBlock => exact .needTables (.needContext (.block _ _ (by simp [WritesBlock])))
  | subBytes | invSubBytes => exact .needTables (.block _ s.rc (by simp [WritesBlock]))
  | addRoundKey round => exact .needContext (.needArgument _ (.block _ s.rc (by simp [WritesBlock])))
  | loadState | shiftRows | invShiftRows | mixColumns | invMixColumns => exact .block _ s.rc (by simp [WritesBlock])
  | tblRead sel index =>
    refine .needTables ?_
    cases selectedTable sel s.tbl
    exacts [.failed _ (by decide), .rdata _ (by simp [WritesRdata])]
  | ksRead index => exact .needContext (.needArgument _ (.rdata _ (by simp [WritesRdata])))
  | gfMul a b => exact .rdata _ (by simp [WritesRdata])

/-- No command raises AllocationFailure (R101, U9). -/
theorem WritesEnd.err_ne_allocationFailure {i : Instr} {s t : State} {o : Out} (h : WritesEnd i s o)
    (ho : o = .next t) : t.err ≠ some .allocationFailure := by
  cases h <;> obtain rfl := Host.Outcome.next.inj ho
  case failed e he => simpa using he
  all_goals simp

/-- A store that the command changed is one that it may write. -/
theorem WritesEnd.writes {i : Instr} {s t : State} {o : Out} (h : WritesEnd i s o) (ho : o = .next t) :
    (t.tbl ≠ s.tbl ∨ t.tblValid ≠ s.tblValid → i = .tblInit) ∧
    (t.ctx ≠ s.ctx → (∃ len, i = .keyExpand len) ∨ i = .release) ∧
    (t.st ≠ s.st → WritesBlock i) ∧ (t.rdata ≠ s.rdata → WritesRdata i) := by
  cases h <;> obtain rfl := Host.Outcome.next.inj ho
  case failed => simp
  case nothing => simp
  case tables hi => simp [hi]
  case context hi => simp [hi]
  case block hi => simp [hi]
  case rdata hi => simp [hi]
  case released hi => simp [hi, WritesBlock, WritesRdata]

/-- Once TBL_VALID = 1 a core step leaves T and TBL_VALID alone: a repeated TBL_INIT builds nothing (R17, R66). -/
theorem StoresEnd.keepsValidTables {s t : State} {o : Out} (h : StoresEnd s o) (ho : o = .next t)
    (hvalid : s.tblValid = true) : t.tbl = s.tbl ∧ t.tblValid = true := by
  cases h <;> obtain rfl := Host.Outcome.next.inj ho
  case built hinvalid => exact absurd (hinvalid.symm.trans hvalid) Bool.false_ne_true
  all_goals exact ⟨rfl, hvalid⟩

/-- Settles O43: each end of a command writes the stores of its row only, and no step but the reset input and TBL_INIT's first
end touches the tables. -/
theorem onlyTheseCommandsWrite : Obligations.OnlyTheseCommandsWrite := by
  refine ⟨fun i s t h => (exec_writes i s).writes h, fun s t hvalid hreset hstep => ?_⟩
  refine step_keeps (P := fun u => u.tbl = s.tbl ∧ u.tblValid = true) ⟨rfl, hvalid⟩ hstep ?host ?accept ?core ?reset
  case host => exact fun _ _ _ _ _ _ _ h => h
  case accept => exact fun _ _ h => h
  case core =>
    rintro u t ⟨htbl, hv⟩ hp
    obtain ⟨htbl', hv'⟩ := (perform_stores u).keepsValidTables hp hv
    exact ⟨htbl'.trans htbl, hv'⟩
  case reset => exact fun rest hag => absurd (congrArg List.head? hag) hreset

/-! ### The invariants I1 to I6 (R32) -/

/-- I1 to I6 with the views resolved: no context, or one of a valid length expanded when the tables were valid; the boxes; DONE
only while idle. I5 holds of every state, BUSY being a view of PHASE (log entry 7). -/
theorem inv_iff (s : State) :
    s.Inv ↔
      ((s.ctx.nk = 0 ∧ s.ctx.nr = 0) ∨
        ((s.ctx.nk = 4 ∨ s.ctx.nk = 6 ∨ s.ctx.nk = 8) ∧ s.ctx.nr = s.ctx.nk + 6 ∧ s.tblValid = true)) ∧
      (s.tblValid = true →
        s.tbl.sbox = printedSbox ∧ ∀ x : Byte, tableGet s.tbl.isbox (tableGet s.tbl.sbox x) = x) ∧
      (s.done = true → s.phase = .idle) := by
  constructor
  · intro h
    refine ⟨?_, h.boxes, fun hd => ?_⟩
    · cases hk : s.keyValid with
      | false => exact .inl ⟨(not_keyValid_iff_nk s).1 hk, h.rounds.2 hk⟩
      | true => exact .inr ⟨h.keyValid_iff.1 hk, h.rounds.1 hk, h.tablesFirst hk⟩
    · have hbusy := h.doneIsIdle ((status_bit_done s).trans hd)
      rwa [status_bit_busy, not_busy_iff] at hbusy
  · rintro ⟨hctx, hboxes, hdone⟩
    have hphase : s.status.getLsbD 0 = true ↔ s.phase = .busy := by rw [status_bit_busy, busy_iff]
    have hidle : s.status.getLsbD 1 = true → s.status.getLsbD 0 = false := by
      rw [status_bit_busy, status_bit_done, not_busy_iff]
      exact hdone
    obtain ⟨hnk, hnr⟩ | ⟨hnk, hnr, hvalid⟩ := hctx
    · have hkey : s.keyValid = false := (not_keyValid_iff_nk s).2 hnk
      exact ⟨by simp [hnk], by simp [hkey, hnr], by simp [hkey], hboxes, hphase, hidle⟩
    · have hkey : s.keyValid = true := by
        rw [keyValid_iff_nk]
        obtain e | e | e := hnk <;> rw [e] <;> decide
      exact ⟨⟨fun _ => hnk, fun _ => hkey⟩, by simp [hkey, hnr], fun _ => hvalid, hboxes, hphase, hidle⟩

/-- The invariants see T, TBL_VALID and CTX, and that DONE is set only while idle. -/
theorem State.Inv.of_stores_eq {s t : State} (h : s.Inv) (htbl : t.tbl = s.tbl) (hvalid : t.tblValid = s.tblValid)
    (hctx : t.ctx = s.ctx) (hdone : t.done = true → t.phase = .idle) : t.Inv := by
  obtain ⟨hcontext, hboxes, -⟩ := (inv_iff s).1 h
  rw [inv_iff, htbl, hvalid, hctx]
  exact ⟨hcontext, hboxes, hdone⟩

/-- DONE is set only while idle (I6). -/
theorem State.Inv.idle_of_done {s : State} (h : s.Inv) : s.done = true → s.phase = .idle := ((inv_iff s).1 h).2.2

/-- The boxes of the tables TBL_INIT builds (R64, R65). -/
theorem builtTables_boxes :
    builtTables.sbox = printedSbox ∧ ∀ x : Byte, tableGet builtTables.isbox (tableGet builtTables.sbox x) = x := by
  rw [builtTables_eq_printed]
  exact ⟨rfl, printedIsbox_printedSbox⟩

/-- Every end of a command keeps the invariants: TBL_INIT builds the printed boxes, KEY_EXPAND leaves a valid length with its
round count, RELEASE leaves no context. -/
theorem StoresEnd.keepsInv {s t : State} {o : Out} (h : StoresEnd s o) (ho : o = .next t) (hs : s.Inv) : t.Inv := by
  obtain ⟨hctx, hboxes, -⟩ := (inv_iff s).1 hs
  cases h <;> obtain rfl := Host.Outcome.next.inj ho
  case kept => exact hs.of_stores_eq rfl rfl rfl fun _ => rfl
  case built hinvalid =>
    refine (inv_iff _).2 ⟨hctx.imp_right fun ⟨_, _, hvalid⟩ => ?_, fun _ => builtTables_boxes, fun _ => rfl⟩
    exact absurd (hinvalid.symm.trans hvalid) Bool.false_ne_true
  case expanded nk hk hvalid => exact (inv_iff _).2 ⟨.inr ⟨hk, rfl, hvalid⟩, hboxes, fun _ => rfl⟩
  case released => exact (inv_iff _).2 ⟨.inl ⟨rfl, rfl⟩, hboxes, fun _ => rfl⟩

/-- The invariants hold of the state after reset. -/
theorem reset_inv : State.reset.Inv :=
  (inv_iff _).2 ⟨.inl ⟨rfl, rfl⟩, fun h => absurd h Bool.false_ne_true, fun _ => rfl⟩

/-- Settles O58: only a core step touches the stores but for the reset input, and each of its ends keeps the invariants. -/
theorem everyStepKeepsTheInvariants : Obligations.EveryStepKeepsTheInvariants := by
  intro s t hs hstep
  refine step_keeps hs hstep ?host ?accept ?core ?reset
  case host => exact fun s _ _ _ _ _ _ h => h.of_stores_eq rfl rfl rfl h.idle_of_done
  case accept => exact fun s v h => h.of_stores_eq rfl rfl rfl fun hd => absurd hd Bool.false_ne_true
  case core => exact fun s t h hp => (perform_stores s).keepsInv hp h
  case reset => exact fun rest _ => reset_inv.of_stores_eq rfl rfl rfl fun _ => rfl

/-! ### What else every step keeps -/

/-- No core step raises AllocationFailure (R101, U9). -/
theorem perform_err_ne_allocationFailure {s t : State} (h : perform s = .next t) : t.err ≠ some .allocationFailure := by
  unfold perform at h
  split at h
  · exact (exec_writes _ s).err_ne_allocationFailure h
  · obtain rfl := Host.Outcome.next.inj h
    simp

/-- The words past the schedule of an expanded context are zero (R73). -/
theorem expand_tail (t : Tables) (key : Vector Word 8) {nk : BitVec 4} (hk : nk = 4 ∨ nk = 6 ∨ nk = 8) (i : Fin 60)
    (hi : nk = 0 ∨ 4 * ((nk + 6).toNat + 1) ≤ i.val) : (expand t key nk.toNat).1[i] = 0 := by
  have hnk : nk ≠ 0 ∧ (nk + 6).toNat = nk.toNat + 6 ∧ (nk.toNat = 4 ∨ nk.toNat = 6 ∨ nk.toNat = 8) := by
    obtain e | e | e := hk <;> subst e <;> decide
  obtain ⟨hne, hrounds, hlength⟩ := hnk
  obtain ⟨-, -, hzero⟩ := expand_isSchedule t key hlength
  have h := hzero i.val (by have := hi.resolve_left hne; omega) i.isLt
  rwa [scheduleWord_of_lt _ _ i.isLt] at h

/-- Completion keeps the stores when it reports no AllocationFailure. -/
theorem State.Kept.complete {s : State} {e : Option CmdError} (h : s.Kept) (herr : e ≠ some .allocationFailure) :
    (s.complete e).Kept :=
  ⟨h.tables, h.tail, (nomatch ·), herr, h.aligned⟩

/-- So does writing the printed tables. -/
theorem State.Kept.withTables {s : State} {tbl : Tables} (h : s.Kept) (htbl : tbl = printedTables) :
    State.Kept { s with tbl := tbl, tblValid := true } :=
  { h with tables := fun _ => htbl }

/-- Every end of a command that reports no AllocationFailure keeps the stores. -/
theorem StoresEnd.keepsStores {s t : State} {o : Out} (h : StoresEnd s o) (ho : o = .next t) (hs : s.Kept)
    (herr : t.err ≠ some .allocationFailure) : t.Kept := by
  cases h <;> obtain rfl := Host.Outcome.next.inj ho
  case kept => exact State.Kept.complete { hs with } herr
  case built => exact (hs.withTables builtTables_eq_printed).complete (by decide)
  case expanded nk hk _ =>
    exact State.Kept.complete
      { hs with tail := fun i hi => expand_tail s.tbl s.lkey hk i (hi.imp_left (not_keyValid_iff_nk _).1) } herr
  case released => exact State.Kept.complete { hs with tail := fun i _ => Vector.getElem_replicate i.isLt } herr

/-- What else every step keeps holds of the state after reset, the window being aligned by log entry 3. -/
theorem reset_kept : State.reset.Kept where
  tables h := absurd h Bool.false_ne_true
  tail i _ := Vector.getElem_replicate i.isLt
  inFlight h := nomatch h
  noAllocationFailure := by decide
  aligned := Nat.mul_mod_right 256 Config.aesPage

/-- Settles O59: reset leaves the tables invalid, no context and no command in flight. -/
theorem invariantsHoldAtReset : Obligations.InvariantsHoldAtReset := ⟨reset_inv, reset_kept⟩

/-- Settles O60: acceptance writes CMD and LCMD together and clears DONE and ERR, and each end of a core step keeps the stores. -/
theorem everyStepKeepsTheStores : Obligations.EveryStepKeepsTheStores := by
  intro s t _ hs hstep
  refine step_keeps hs hstep ?host ?accept ?core ?reset
  case host => exact fun s _ _ _ _ _ _ h => { h with }
  case accept => exact fun s v h => { h with inFlight := fun _ => ⟨rfl, rfl, rfl⟩, noAllocationFailure := by simp }
  case core => exact fun s t h hp => (perform_stores s).keepsStores hp h (perform_err_ne_allocationFailure hp)
  case reset => exact fun rest _ => { reset_kept with aligned := hs.aligned }

end Sys2Proof.Machine
end

section
/-! PROOFS. State (10_state.md): what cannot be told by any step, the tables before TBL_INIT (R18) and the hidden registers (R30).
Each is a relation between two states that alike steps keep. -/

namespace Sys2Proof.Machine

/-! ### Two runs side by side -/

/-- Two outcomes of one kind, whose next states `R` relates. -/
inductive OutRel (R : State → State → Prop) : Out → Out → Prop where
  | next {t t' : State} (h : R t t') : OutRel R (.next t) (.next t')
  | fault (r : Fault) : OutRel R (.fault r) (.fault r)
  | refused (r : Refusal) : OutRel R (.refused r) (.refused r)

theorem OutRel.refl {R : State → State → Prop} (h : ∀ t, R t t) : ∀ o, OutRel R o o
  | .next t => .next (h t)
  | .fault r => .fault r
  | .refused r => .refused r

/-- Outcomes whose next states differ by a change `f a`, as one outcome with that change after it. -/
theorem OutRel.exists_andThen {R : State → State → Prop} {α : Type} {f : α → State → State} {P : α → State → Prop}
    {o o' : Out} (h : OutRel R o o') (hR : ∀ {t t'}, R t t' → ∃ a, t' = f a t ∧ P a t) (a : α) :
    ∃ a, o' = andThen o (fun t => .next (f a t)) ∧ ∀ t, o = .next t → P a t := by
  cases h with
  | next h =>
    obtain ⟨b, rfl, hb⟩ := hR h
    exact ⟨b, rfl, fun t ht => Host.Outcome.next.inj ht ▸ hb⟩
  | fault r => exact ⟨a, rfl, fun _ h => nomatch h⟩
  | refused r => exact ⟨a, rfl, fun _ h => nomatch h⟩

section
variable {R : State → State → Prop} {s s' : State}

/-- The check for the tables, in two states that agree on TBL_VALID. -/
theorem OutRel.needTables {go go' : Out} (hv : s'.tblValid = s.tblValid) (hfail : ∀ e, R (s.complete e) (s'.complete e))
    (h : s.tblValid = true → OutRel R go go') : OutRel R (needTables s go) (needTables s' go') := by
  cases hs : s.tblValid with
  | false =>
    rw [needTables_false s _ hs, needTables_false s' _ (hv.trans hs)]
    exact .next (hfail _)
  | true =>
    rw [needTables_true s _ hs, needTables_true s' _ (hv.trans hs)]
    exact h hs

/-- The check for a context, in two states that agree on the context. -/
theorem OutRel.needContext {go go' : Out} (hc : s'.ctx = s.ctx) (hfail : ∀ e, R (s.complete e) (s'.complete e))
    (h : OutRel R go go') : OutRel R (needContext s go) (needContext s' go') := by
  have hv : s'.keyValid = s.keyValid := by rw [State.keyValid, hc, State.keyValid]
  cases hs : s.keyValid with
  | false =>
    rw [needContext_false s _ hs, needContext_false s' _ (hv.trans hs)]
    exact .next (hfail _)
  | true =>
    rw [needContext_true s _ hs, needContext_true s' _ (hv.trans hs)]
    exact h

/-- The check for an operand. -/
theorem OutRel.needArgument {go go' : Out} (ok : Bool) (hfail : ∀ e, R (s.complete e) (s'.complete e))
    (h : OutRel R go go') : OutRel R (needArgument ok s go) (needArgument ok s' go') := by
  cases ok
  exacts [.next (hfail _), h]

/-- The core step, in two states with the same latched word. -/
theorem OutRel.perform (hl : s'.lcmd = s.lcmd) (hfail : ∀ e, R (s.complete e) (s'.complete e))
    (hexec : ∀ i, OutRel R (exec i s) (exec i s')) : OutRel R (perform s) (perform s') := by
  unfold Machine.perform
  rw [hl]
  split
  · exact hexec _
  · exact .next (hfail _)

end

/-- `R` relates states in which every turn does the same: it makes them agree on what a turn looks at before it acts, and is
kept by each action (the unwinding conditions of a noninterference proof). -/
structure Unwinds (R : State → State → Prop) : Prop where
  aesBase : ∀ {s s'}, R s s' → s'.aesBase = s.aesBase
  agenda : ∀ {s s'}, R s s' → s'.agenda = s.agenda
  phase : ∀ {s s'}, R s s' → s'.phase = s.phase
  rest : ∀ {s s'} rest, R s s' → R { s with agenda := rest } { s' with agenda := rest }
  read : ∀ {s s'} r, R s s' → R (hostRead r s) (hostRead r s')
  accept : ∀ {s s'} v, s.phase = .idle → R s s' → R (s.accept v) (s'.accept v)
  overrun : ∀ {s s'}, R s s' → R { s with ovr := true } { s' with ovr := true }
  key : ∀ {s s'} (k : Fin 8) v, R s s' → R { s with key := s.key.set k v } { s' with key := s'.key.set k v }
  din : ∀ {s s'} (k : Fin 4) v, R s s' → R { s with din := s.din.set k v } { s' with din := s'.din.set k v }
  perform : ∀ {s s'}, s.phase = .busy → R s s' → OutRel R (perform s) (perform s')
  reset : ∀ {s s'}, R s s' → R (resetTurn s) (resetTurn s')

section
variable {R : State → State → Prop} {s s' : State}

theorem Unwinds.hostWrite (h : Unwinds R) (hR : R s s') (r : WindowReg) (v : Word) :
    R (hostWrite r v s) (hostWrite r v s') := by
  cases r with
  | cmd =>
    obtain hp | hp := idle_or_busy s
    · rw [hostWrite_cmd, hostWrite_cmd, issue_idle v s hp, issue_idle v s' ((h.phase hR).trans hp)]
      exact h.accept v hp hR
    · rw [hostWrite_cmd, hostWrite_cmd, issue_busy v s hp, issue_busy v s' ((h.phase hR).trans hp)]
      exact h.overrun hR
  | key k => exact h.key k v hR
  | din k => exact h.din k v hR
  | status | rdata | dout | reserved => exact hR

theorem Unwinds.hostTurn (h : Unwinds R) (hR : R s s') (a : Access) : OutRel R (hostTurn a s) (hostTurn a s') := by
  cases a with
  | read addr width =>
    simp only [Machine.hostTurn, h.aesBase hR]
    split
    · exact .fault _
    · split
      exacts [.next (h.read _ hR), .refused _]
  | write addr width v =>
    simp only [Machine.hostTurn, h.aesBase hR]
    split
    · exact .fault _
    · split
      exacts [.next (h.hostWrite hR _ v), .refused _]

theorem Unwinds.coreTurn (h : Unwinds R) (hR : R s s') : OutRel R (coreTurn s) (coreTurn s') := by
  obtain hp | hp := idle_or_busy s
  · rw [coreTurn_idle s hp, coreTurn_idle s' ((h.phase hR).trans hp)]
    exact .next hR
  · rw [coreTurn_busy s hp, coreTurn_busy s' ((h.phase hR).trans hp)]
    exact h.perform hp hR

/-- Alike states take alike steps. -/
theorem Unwinds.step (h : Unwinds R) (hR : R s s') : OutRel R (step s) (step s') := by
  simp only [Machine.step, h.agenda hR]
  split
  · exact h.coreTurn hR
  · exact h.hostTurn (h.rest _ hR) _
  · exact h.coreTurn (h.rest _ hR)
  · exact .next (h.reset (h.rest _ hR))

end

/-! ### The tables before TBL_INIT (R18) -/

/-- Alike but for T, and in T too once TBL_VALID = 1. -/
def AlikeButTables (s s' : State) : Prop := ∃ tbl, s' = { s with tbl := tbl } ∧ (s.tblValid = true → tbl = s.tbl)

theorem AlikeButTables.refl (s : State) : AlikeButTables s s := ⟨s.tbl, rfl, fun _ => rfl⟩

/-- Before TBL_INIT a command that reads T fails, TBL_INIT builds the same tables, and no other command sees T. -/
theorem exec_tables_unread (i : Instr) {s : State} (hs : s.tblValid = false) (tbl : Tables) :
    OutRel AlikeButTables (exec i s) (exec i { s with tbl := tbl }) := by
  have alike {t : State} (ht : t.tblValid = s.tblValid) : AlikeButTables t { t with tbl := tbl } :=
    ⟨tbl, rfl, fun h => absurd ((ht.trans hs).symm.trans h) Bool.false_ne_true⟩
  have hfail (e : Option CmdError) : AlikeButTables (s.complete e) (State.complete e { s with tbl := tbl }) := alike rfl
  have hno {p : Prop} (h : s.tblValid = true) : p := absurd (hs.symm.trans h) Bool.false_ne_true
  cases i with
  | tblInit =>
    simp only [exec, execTblInit, hs]
    exact .next (.refl _)
  | keyExpand | tblRead | subBytes | invSubBytes | encBlock | decBlock => exact .needTables rfl hfail hno
  | addRoundKey | ksRead => exact .needContext rfl hfail (.needArgument _ hfail (.next (alike rfl)))
  | nop | release | loadState | shiftRows | invShiftRows | mixColumns | invMixColumns | gfMul => exact .next (alike rfl)

theorem alikeButTables_unwinds : Unwinds AlikeButTables where
  aesBase := by rintro s _ ⟨tbl, rfl, -⟩; rfl
  agenda := by rintro s _ ⟨tbl, rfl, -⟩; rfl
  phase := by rintro s _ ⟨tbl, rfl, -⟩; rfl
  rest := by rintro s _ rest ⟨tbl, rfl, h⟩; exact ⟨tbl, rfl, h⟩
  read := by rintro s _ r ⟨tbl, rfl, h⟩; exact ⟨tbl, by cases r <;> rfl, h⟩
  accept := by rintro s _ v - ⟨tbl, rfl, h⟩; exact ⟨tbl, rfl, h⟩
  overrun := by rintro s _ ⟨tbl, rfl, h⟩; exact ⟨tbl, rfl, h⟩
  key := by rintro s _ k v ⟨tbl, rfl, h⟩; exact ⟨tbl, rfl, h⟩
  din := by rintro s _ k v ⟨tbl, rfl, h⟩; exact ⟨tbl, rfl, h⟩
  perform := by
    rintro s _ - ⟨tbl, rfl, h⟩
    obtain hs | hs := Bool.eq_false_or_eq_true s.tblValid
    · rw [h hs]
      exact .refl AlikeButTables.refl _
    · exact .perform rfl (fun _ => ⟨tbl, rfl, h⟩) fun i => exec_tables_unread i hs tbl
  reset := by rintro s _ ⟨tbl, rfl, -⟩; exact .refl _

/-- Settles O45: states that differ in T alone, while TBL_VALID = 0, are alike but for T, and alike states take alike steps. -/
theorem tablesUnobservableBeforeInit : Obligations.TablesUnobservableBeforeInit := by
  intro s other hs
  have hR : AlikeButTables s { s with tbl := other } :=
    ⟨other, rfl, fun h => absurd (hs.symm.trans h) Bool.false_ne_true⟩
  exact (alikeButTables_unwinds.step hR).exists_andThen id other

/-! ### The hidden registers (R30) -/

/-- The three latches of a command: LCMD, LKEY and LDIN. -/
abbrev Latches := Word × Vector Word 8 × Vector Word 4

/-- `s` with other latches. -/
def State.withLatches (l : Latches) (s : State) : State := { s with lcmd := l.1, lkey := l.2.1, ldin := l.2.2 }

/-- Alike but for LCMD, LKEY and LDIN, and in them too while a command is in flight. -/
def AlikeButLatches (s s' : State) : Prop :=
  ∃ l, s' = s.withLatches l ∧ (s.phase = .busy → l = (s.lcmd, s.lkey, s.ldin))

theorem AlikeButLatches.refl (s : State) : AlikeButLatches s s := ⟨_, rfl, fun _ => rfl⟩

theorem AlikeButLatches.eq_of_busy {s s' : State} (h : AlikeButLatches s s') (hs : s.phase = .busy) : s' = s := by
  obtain ⟨l, rfl, h⟩ := h
  rw [h hs]
  rfl

theorem alikeButLatches_unwinds : Unwinds AlikeButLatches where
  aesBase := by rintro s _ ⟨l, rfl, -⟩; rfl
  agenda := by rintro s _ ⟨l, rfl, -⟩; rfl
  phase := by rintro s _ ⟨l, rfl, -⟩; rfl
  rest := by rintro s _ rest ⟨l, rfl, h⟩; exact ⟨l, rfl, h⟩
  read := by rintro s _ r ⟨l, rfl, h⟩; exact ⟨l, by cases r <;> rfl, h⟩
  accept := by rintro s _ v - ⟨l, rfl, -⟩; exact .refl _
  overrun := by rintro s _ ⟨l, rfl, h⟩; exact ⟨l, rfl, h⟩
  key := by rintro s _ k v ⟨l, rfl, h⟩; exact ⟨l, rfl, h⟩
  din := by rintro s _ k v ⟨l, rfl, h⟩; exact ⟨l, rfl, h⟩
  perform := by
    intro s s' hs h
    rw [h.eq_of_busy hs]
    exact .refl AlikeButLatches.refl _
  reset := by rintro s _ ⟨l, rfl, -⟩; exact .refl _

/-- `s` with other RC and RCON. -/
def State.withRounds (r : Byte × Byte) (s : State) : State := { s with rc := r.1, rcon := r.2 }

/-- Alike but for RC and RCON. -/
def AlikeButRounds (s s' : State) : Prop := ∃ r, s' = s.withRounds r

/-- No command reads RC or RCON; ENC_BLOCK, DEC_BLOCK and KEY_EXPAND write their own values (R71, R87, R88). -/
theorem exec_rounds_unread (i : Instr) (s : State) (r : Byte × Byte) :
    OutRel AlikeButRounds (exec i s) (exec i (s.withRounds r)) := by
  have hfail (e : Option CmdError) : AlikeButRounds (s.complete e) ((s.withRounds r).complete e) := ⟨r, rfl⟩
  cases i with
  | tblInit =>
    simp only [exec, execTblInit, show (s.withRounds r).tblValid = s.tblValid from rfl]
    split <;> exact .next ⟨r, rfl⟩
  | keyExpand len =>
    refine .needTables rfl hfail fun _ => ?_
    cases keyWords len
    exacts [.next (hfail _), .next ⟨(r.1, _), rfl⟩]
  | tblRead sel index =>
    refine .needTables rfl hfail fun _ => ?_
    rw [show (s.withRounds r).tbl = s.tbl from rfl]
    cases selectedTable sel s.tbl
    exacts [.next (hfail _), .next ⟨r, rfl⟩]
  | encBlock | decBlock => exact .needTables rfl hfail fun _ => .needContext rfl hfail (.next ⟨(_, r.2), rfl⟩)
  | subBytes | invSubBytes => exact .needTables rfl hfail fun _ => .next ⟨r, rfl⟩
  | addRoundKey | ksRead => exact .needContext rfl hfail (.needArgument _ hfail (.next ⟨r, rfl⟩))
  | nop | release | loadState | shiftRows | invShiftRows | mixColumns | invMixColumns | gfMul => exact .next ⟨r, rfl⟩

theorem alikeButRounds_unwinds : Unwinds AlikeButRounds where
  aesBase := by rintro s _ ⟨x, rfl⟩; rfl
  agenda := by rintro s _ ⟨x, rfl⟩; rfl
  phase := by rintro s _ ⟨x, rfl⟩; rfl
  rest := by rintro s _ rest ⟨x, rfl⟩; exact ⟨x, rfl⟩
  read := by rintro s _ r ⟨x, rfl⟩; exact ⟨x, by cases r <;> rfl⟩
  accept := by rintro s _ v - ⟨x, rfl⟩; exact ⟨x, rfl⟩
  overrun := by rintro s _ ⟨x, rfl⟩; exact ⟨x, rfl⟩
  key := by rintro s _ k v ⟨x, rfl⟩; exact ⟨x, rfl⟩
  din := by rintro s _ k v ⟨x, rfl⟩; exact ⟨x, rfl⟩
  perform := by
    rintro s _ - ⟨x, rfl⟩
    exact .perform rfl (fun _ => ⟨x, rfl⟩) fun i => exec_rounds_unread i s x
  reset := by rintro s _ ⟨x, rfl⟩; exact ⟨(_, _), rfl⟩

/-- Settles O46: states that differ in the latches alone, while idle, or in RC and RCON alone, are alike, and alike states take
alike steps. -/
theorem hiddenRegistersNeverReadBeforeWritten : Obligations.HiddenRegistersNeverReadBeforeWritten := by
  refine ⟨fun s c k d hs => ?_, fun s x y => ?_⟩
  · have hR : AlikeButLatches s (s.withLatches (c, k, d)) :=
      ⟨_, rfl, fun h => absurd (hs.symm.trans h) (by decide)⟩
    obtain ⟨⟨c', k', d'⟩, he, hlatches⟩ := (alikeButLatches_unwinds.step hR).exists_andThen id (c, k, d)
    exact ⟨c', k', d', he, fun t ht hbusy => by simpa using hlatches t ht hbusy⟩
  · have hR : AlikeButRounds s (s.withRounds (x, y)) := ⟨_, rfl⟩
    obtain ⟨⟨x', y'⟩, he, -⟩ := (alikeButRounds_unwinds.step hR).exists_andThen (P := fun _ _ => True)
      (fun ⟨r, h⟩ => ⟨r, h, trivial⟩) (x, y)
    exact ⟨x', y', he⟩

end Sys2Proof.Machine
end

section
/-! PROOFS. State (10_state.md): the STATUS word (R26) and the register window (R24). -/

namespace Sys2Proof.Machine

/-! ### STATUS (R26, R101) -/

/-- A field of one bit is set when the bit is. -/
theorem extractLsb'_one_eq_one_iff (w : Word) (k : Nat) : w.extractLsb' k 1 = 1 ↔ w.getLsbD k = true := by
  rw [BitVec.eq_of_getLsbD_eq_iff]
  simp

/-- A field of STATUS, bit by bit. -/
theorem status_field {s : State} {k n : Nat} {x : BitVec n} (h : ∀ i < n, s.status.getLsbD (k + i) = x.getLsbD i) :
    s.status.extractLsb' k n = x := by
  apply BitVec.eq_of_getLsbD_eq
  intro i hi
  rw [BitVec.getLsbD_extractLsb', h i hi]
  simp [hi]

/-- Settles O12: each field, from the table of STATUS's bits; the codes are their definition. -/
theorem statusWordLayout : Obligations.StatusWordLayout := by
  refine ⟨fun s => ?_, rfl, rfl, rfl, rfl, rfl, rfl, rfl⟩
  simp only [extractLsb'_one_eq_one_iff]
  refine ⟨?busy, ?done, ?tblValid, ?keyValid, ?err, ?ovr, ?low, ?nk, ?nr, ?high⟩
  case busy => rw [status_bit_busy, busy_iff]
  case done => rw [status_bit_done]
  case tblValid => rw [status_getLsbD]; exact Iff.rfl
  case keyValid => rw [status_getLsbD]; exact keyValid_iff_nk s
  case err => exact status_field fun i hi => by rw [status_getLsbD]; grind
  case ovr => rw [status_getLsbD]; exact Iff.rfl
  case low => exact status_field fun i hi => by rw [status_getLsbD]; grind
  case nk => exact status_field fun i hi => by rw [status_getLsbD]; grind
  case nr => exact status_field fun i hi => by rw [status_getLsbD]; grind
  case high => exact status_field fun i hi => by rw [status_getLsbD]; grind

/-! ### The register window (R24) -/

@[simp] theorem registerAt_key : ∀ k : Fin 8, registerAt (0x10 + 4 * k.val) = .key k := by decide
@[simp] theorem registerAt_din : ∀ k : Fin 4, registerAt (0x30 + 4 * k.val) = .din k := by decide
@[simp] theorem registerAt_dout : ∀ k : Fin 4, registerAt (0x40 + 4 * k.val) = .dout k := by decide

/-- From 0x40 on an offset is one of DOUT's or reserved. -/
theorem registerAt_of_past_din {off : Nat} (h : 0x40 ≤ off) :
    (off < 0x50 ∧ ∃ k, registerAt off = .dout k) ∨ (0x50 ≤ off ∧ registerAt off = .reserved) := by
  have hbelow : off ≠ 0x00 ∧ off ≠ 0x04 ∧ off ≠ 0x08 ∧ ¬ off < 0x10 ∧ ¬ off < 0x30 ∧ ¬ off < 0x40 := by omega
  by_cases hdout : off < 0x50
  · exact .inl ⟨hdout, by simp [registerAt, hbelow, hdout]⟩
  · exact .inr ⟨by omega, by simp [registerAt, hbelow, hdout]⟩

/-- A write at an offset of no writable register is ignored (R36). -/
theorem hostWrite_ignored {off : Nat} (h : off = 0x04 ∨ off = 0x08 ∨ off = 0x0C ∨ 0x40 ≤ off) (v : Word) (s : State) :
    hostWrite (registerAt off) v s = s := by
  obtain rfl | rfl | rfl | h := h
  · exact hostWrite_status v s
  · exact hostWrite_rdata v s
  · exact hostWrite_reserved v s
  · obtain ⟨-, k, e⟩ | ⟨-, e⟩ := registerAt_of_past_din h <;> rw [e]
    exacts [hostWrite_dout k v s, hostWrite_reserved v s]

/-- Past DOUT every read returns 0 (R36). -/
theorem readRegister_past_dout {off : Nat} (h : 0x50 ≤ off) (s : State) : readRegister (registerAt off) s = 0 := by
  obtain ⟨hlt, -⟩ | ⟨-, e⟩ := registerAt_of_past_din (show 0x40 ≤ off by omega)
  · omega
  · rw [e]
    rfl

/-- While the core is idle no read is drawn (R42). -/
theorem readIsDrawn_idle {s : State} (hs : s.phase = .idle) (r : WindowReg) : readIsDrawn r s = false := by
  cases r <;> simp [readIsDrawn, hs]

/-- Every register of the reset state reads 0 (R115). -/
theorem readRegister_reset (r : WindowReg) : readRegister r State.reset = 0 := by
  simp only [readRegister, readIsDrawn_idle (show State.reset.phase = .idle from rfl)]
  cases r with
  | key k => exact Vector.getElem_replicate k.isLt
  | din k => exact Vector.getElem_replicate k.isLt
  | dout k => revert k; decide
  | cmd | status | rdata | reserved => rfl

/-- Settles O47: the offsets of R24's table name its registers, no read is drawn while idle, and a CMD write is an acceptance. -/
theorem registerMap : Obligations.RegisterMap := by
  refine ⟨fun s hs => ?reads, fun s v k => ?key, fun s v k => ?din, fun s v off hoff => ?ignored, fun s v hs => ?issue,
    fun off _ _ => readRegister_reset _⟩
  case reads =>
    have hread (r : WindowReg) := readIsDrawn_idle hs r
    refine ⟨?_, ?_, ?_, ?_, fun k => ?_, fun k => ?_, fun k => ?_, fun off hlow _ => ?_⟩
    · simp [readRegister, hread, registerAt]
    · simp [readRegister, hread, registerAt]
    · simp [readRegister, hread, registerAt]
    · simp [readRegister, hread, registerAt]
    · simp [readRegister, hread]
    · simp [readRegister, hread]
    · simp [readRegister, hread]
    · exact readRegister_past_dout hlow s
  case key => rw [registerAt_key, hostWrite_key]
  case din => rw [registerAt_din, hostWrite_din]
  case ignored => exact hostWrite_ignored (by omega) v s
  case issue =>
    rw [show registerAt 0x00 = .cmd from rfl, hostWrite_cmd, issue_idle v s hs]
    exact ⟨rfl, rfl, rfl⟩

end Sys2Proof.Machine
end

section
/-! PROOFS. Memory (20_memory.md): which accesses the window takes (R33, R34, R35), CMD writes (R38, R39), KEY and DIN writes (R40),
and reads (R36, R41, R42). -/

namespace Sys2Proof.Machine

/-! ### Accesses by their offset in the window (R33, R34, R35) -/

/-- A 32-bit access at an aligned offset of the window is supported. -/
theorem Access.supported_of_offset {base off : Nat} {a : Access} (haddr : a.addr = base + off) (hwidth : a.width = 4)
    (hoff : off < 256) (haligned : off % 4 = 0) : a.supported base := by
  rw [Access.supported, haddr, hwidth]
  omega

/-- A supported read, by its offset. -/
theorem hostTurn_read_at_offset (s : State) {off : Nat} (hoff : off < 256) (haligned : off % 4 = 0) :
    hostTurn (.read (s.aesBase + off) 4) s = .next (hostRead (registerAt off) s) := by
  rw [hostTurn_read_of_supported (Access.supported_of_offset rfl rfl hoff haligned), Nat.add_sub_cancel_left]

/-- A supported write, by its offset. -/
theorem hostTurn_write_at_offset (s : State) (v : Word) {off : Nat} (hoff : off < 256) (haligned : off % 4 = 0) :
    hostTurn (.write (s.aesBase + off) 4 v) s = .next (hostWrite (registerAt off) v s) := by
  rw [hostTurn_write_of_supported (Access.supported_of_offset rfl rfl hoff haligned), Nat.add_sub_cancel_left]

/-- An offset below 256 is in the window. -/
theorem windowOffset_add {base off : Nat} (hoff : off < 256) : windowOffset base (base + off) = some off := by
  simp [windowOffset, hoff]

/-- The window is 256 bytes: an address has no offset just if it is outside them. -/
theorem windowOffset_eq_none_iff {base addr : Nat} :
    windowOffset base addr = none ↔ addr < base ∨ base + 256 ≤ addr := by
  rw [windowOffset, ite_eq_right_iff]
  simp only [reduceCtorEq, imp_false]
  omega

/-- Another width, or a misaligned offset, is not supported. -/
theorem accessSupported_eq_false {off width : Nat} (h : width ≠ 4 ∨ off % 4 ≠ 0) : accessSupported off width = false :=
  decide_eq_false fun ⟨hwidth, haligned⟩ => h.elim (· hwidth) (· haligned)

/-- Settles O48: a supported access reaches its register by its offset; any other in the window fails the check of support. -/
theorem windowAccessesBySupport : Obligations.WindowAccessesBySupport := by
  refine ⟨fun s off v hoff haligned => ?supported, fun s off width v hoff h => ?refused⟩
  case supported => exact ⟨hostTurn_read_at_offset s hoff haligned, hostTurn_write_at_offset s v hoff haligned⟩
  case refused => simp [hostTurn, windowOffset_add hoff, accessSupported_eq_false h]

/-- Settles O49: such an address has no offset. -/
theorem accessOutsideTheWindowFaults : Obligations.AccessOutsideTheWindowFaults := by
  intro s a h
  have hnone : windowOffset s.aesBase a.addr = none := windowOffset_eq_none_iff.2 h
  cases a with
  | read addr width => simp only [hostTurn, show windowOffset s.aesBase addr = none from hnone]
  | write addr width v => simp only [hostTurn, show windowOffset s.aesBase addr = none from hnone]

/-! ### The core's turn beside the host (R39, R40, R46) -/

/-- A change that rewrites the host's side by fixed values, and nothing else, can be made before the core's turn or after it. -/
theorem coreTurn_map {f : State → State} {s : State} {cmd : Word} {key : Vector Word 8} {din : Vector Word 4} {ovr : Bool}
    {aesBase : Nat} {agenda : List Turn} {reply : Option Word} {draws : Nat}
    (hf : ∀ t : State, f (t.withHostSide s.cmd s.key s.din s.ovr s.aesBase s.agenda s.reply s.draws) =
      t.withHostSide cmd key din ovr aesBase agenda reply draws) :
    coreTurn (f s) = andThen (coreTurn s) fun t => .next (f t) := by
  have hs : f s = s.withHostSide cmd key din ovr aesBase agenda reply draws := hf s
  obtain hp | hp := idle_or_busy s
  · rw [coreTurn_idle s hp, andThen_next, hs, coreTurn_idle]
    exact hp
  · obtain ⟨t, ht, hkept⟩ := (perform_end s).keepsHostSide
    have hft : f t = t.withHostSide cmd key din ovr aesBase agenda reply draws := (congrArg f hkept).trans (hf t)
    rw [hs, coreTurn_busy s hp, coreTurn_busy, perform_withHostSide, ht, andThen_next, andThen_next, hft]
    exact hp

/-! ### Writes to CMD (R38, R39; log entry 12) -/

/-- A 32-bit write at `aes_base` is a write to CMD. -/
theorem hostTurn_write_cmd (s : State) (v : Word) : hostTurn (.write s.aesBase 4 v) s = .next (s.issue v) :=
  hostTurn_write_at_offset s v (off := 0) (by decide) rfl

/-- Settles O51: the write issues its word, and issuing while idle is acceptance. -/
theorem cmdWriteWhileIdleIsAccepted : Obligations.CmdWriteWhileIdleIsAccepted := by
  intro s v hidle
  rw [hostTurn_write_cmd, issue_idle v s hidle]
  rfl

/-- Settles O52: issuing while busy sets OVR, which is on the host's side of the core's turn. -/
theorem cmdWriteWhileBusyIsDropped : Obligations.CmdWriteWhileBusyIsDropped := by
  intro s v hbusy
  refine ⟨?_, coreTurn_map (f := fun t => { t with ovr := true }) fun _ => rfl⟩
  rw [hostTurn_write_cmd, issue_busy v s hbusy]

/-- The core step on a word that decodes is its command (R85). -/
theorem perform_of_decode {s : State} {i : Instr} (h : decode s.lcmd = .ok i) : perform s = exec i s := by
  simp only [perform, h]

/-- A 32-bit number stands for a command just if the word it is decodes to that command. -/
theorem decodeTableWord_eq_some_iff {w : Nat} {i : Instr} :
    decodeTableWord 32 w = some i ↔ decode (tableWord 32 w) = .ok i := by
  rw [decodeTableWord, if_pos le_rfl, decode?]
  cases decode (tableWord 32 w) <;> simp

/-- A placed word has the core's turn next, at the state its acceptance leaves. -/
theorem step_withFetchWord (s : State) (nbits w : Nat) :
    step (s.withFetchWord nbits w) = coreTurn (s.accept (tableWord nbits w)) := rfl

/-- Settles O3: the core's turn comes next, while busy, with the placed word latched. -/
theorem placedCommandRunsNext : Obligations.PlacedCommandRunsNext := by
  intro s w i hw h
  have hword : tableWord 32 w = BitVec.ofNat 32 w := congrArg (BitVec.ofNat 32) (Nat.mod_eq_of_lt hw)
  rw [decodeTableWord_eq_some_iff, hword] at h
  rw [step_withFetchWord, hword, coreTurn_busy _ rfl]
  exact perform_of_decode h

/-! ### Writes to KEY and DIN (R40) -/

/-- Settles O53: the offset names the word, the write sets it alone, and the banks are on the host's side of the core's turn. -/
theorem keyAndDinWritesTakeEffectAtOnce : Obligations.KeyAndDinWritesTakeEffectAtOnce := by
  refine ⟨fun s v k => ?key, fun s v k => ?din, fun s key din => ?core⟩
  case key =>
    refine ⟨{ s with key := s.key.set k v }, ?_, by simp, fun j hj => ?_, rfl⟩
    · rw [hostTurn_write_at_offset s v (by omega) (by omega), registerAt_key, hostWrite_key]
    · exact Vector.getElem_set_ne k.isLt j.isLt (by omega)
  case din =>
    refine ⟨{ s with din := s.din.set k v }, ?_, by simp, fun j hj => ?_, rfl⟩
    · rw [hostTurn_write_at_offset s v (by omega) (by omega), registerAt_din, hostWrite_din]
    · exact Vector.getElem_set_ne k.isLt j.isLt (by omega)
  case core => exact coreTurn_map (f := fun t => { t with key := key, din := din }) fun _ => rfl

/-! ### Reads (R36, R42) -/

/-- Only DOUT and RDATA are drawn, and only while busy (R42). -/
theorem readIsDrawn_eq_false {r : WindowReg} {s : State} (h : (r ≠ .rdata ∧ ∀ k, r ≠ .dout k) ∨ s.busy = false) :
    readIsDrawn r s = false := by
  obtain ⟨hrdata, hdout⟩ | hidle := h
  · cases r with
    | rdata => exact absurd rfl hrdata
    | dout k => exact absurd rfl (hdout k)
    | cmd | status | key | din | reserved => rfl
  · exact readIsDrawn_idle ((not_busy_iff s).1 hidle) r

/-- A read that is not drawn changes no more than the record of what it returned. -/
theorem hostRead_of_not_drawn {r : WindowReg} {s : State} (h : readIsDrawn r s = false) :
    hostRead r s = { s with reply := some (readRegister r s) } := by
  simp [hostRead, h]

/-- Repeated, such a read returns the same value. -/
theorem hostRead_idempotent {r : WindowReg} {s : State} (h : readIsDrawn r s = false) :
    hostRead r (hostRead r s) = hostRead r s := by
  have hagain : readIsDrawn r (hostRead r s) = false := h
  have hvalue : readRegister r (hostRead r s) = readRegister r s := by
    simp only [readRegister, h, hagain]
    rfl
  rw [hostRead_of_not_drawn hagain, hvalue, hostRead_of_not_drawn h]

/-- A drawn read returns the next value of the free function and counts one draw (log entry 4). -/
theorem hostRead_of_drawn {r : WindowReg} {s : State} (h : readIsDrawn r s = true) :
    hostRead r s = { s with reply := some (Config.busyRead s.draws), draws := s.draws + 1 } := by
  simp [hostRead, readRegister, h]

/-- Settles O50: a read writes the reply and the count only; one that is not drawn leaves the count and repeats. -/
theorem readsHaveNoSideEffect : Obligations.ReadsHaveNoSideEffect := by
  refine ⟨fun s r => ⟨_, _, rfl, fun h => ?_⟩, fun s v => ⟨rfl, rfl, rfl, rfl, fun _ => rfl⟩⟩
  have hdrawn := readIsDrawn_eq_false h
  exact ⟨by simp [hdrawn], hostRead_idempotent hdrawn⟩

/-- Settles O55: CMD, KEY and DIN are not drawn, RDATA and DOUT are while busy. -/
theorem readsWhileInFlight : Obligations.ReadsWhileInFlight := by
  intro s hbusy
  refine ⟨rfl, fun _ => rfl, fun _ => rfl, fun r hr => hostRead_of_drawn ?_⟩
  obtain rfl | ⟨k, rfl⟩ := hr <;> exact (busy_iff s).2 hbusy

/-! ### STATUS while a command is in flight (R41) -/

/-- The bits of the mask of TBL_VALID, KEY_VALID, NK and NR. -/
theorem getLsbD_acceptMask :
    ∀ i < 32, (0x000FF00C : Word).getLsbD i = decide (i = 2 ∨ i = 3 ∨ (12 ≤ i ∧ i < 20)) := by decide

/-- The bit of OVR. -/
theorem getLsbD_overrunBit : ∀ i < 32, (0x00000100 : Word).getLsbD i = decide (i = 8) := by decide

/-- Acceptance sets BUSY, clears DONE, ERR and OVR, and leaves the other fields of STATUS (R38, R41). -/
theorem status_accept (s : State) (v : Word) : (s.accept v).status = (s.status &&& 0x000FF00C) ||| 0x00000001 := by
  have hbusy : (s.accept v).busy = true := rfl
  have hkey : (s.accept v).keyValid = s.keyValid := rfl
  have herr : errCode none = 0 := rfl
  apply BitVec.eq_of_getLsbD_eq
  intro i hi
  rw [BitVec.getLsbD_or, BitVec.getLsbD_and, getLsbD_acceptMask i hi, status_getLsbD, status_getLsbD, hbusy, hkey,
    accept_done, accept_tblValid, accept_err, accept_ovr, accept_ctx, herr]
  grind

/-- Setting OVR sets bit 8 of STATUS and no other (R26). -/
theorem status_overrun (s : State) : State.status { s with ovr := true } = s.status ||| 0x00000100 := by
  have hbusy : State.busy { s with ovr := true } = s.busy := rfl
  have hkey : State.keyValid { s with ovr := true } = s.keyValid := rfl
  apply BitVec.eq_of_getLsbD_eq
  intro i hi
  rw [BitVec.getLsbD_or, getLsbD_overrunBit i hi, status_getLsbD, status_getLsbD, hbusy, hkey]
  grind

/-- Settles O54: STATUS after acceptance, bit by bit; while busy a host turn is a read, a drop that sets OVR, or a write of KEY or
DIN, which STATUS does not show. -/
theorem statusWhileInFlight : Obligations.StatusWhileInFlight := by
  refine ⟨status_accept, fun s t a hbusy hturn => ?_, fun _ => rfl⟩
  obtain ⟨r, rfl⟩ | ⟨r, v, rfl⟩ := hostTurn_next hturn
  · exact .inl rfl
  · obtain ⟨hidle, -⟩ | ⟨-, e⟩ | ⟨key, e⟩ | ⟨din, e⟩ := hostWrite_cases r v s
    · exact absurd (hidle.symm.trans hbusy) (by decide)
    · exact .inr (e ▸ status_overrun s)
    · exact .inl (e ▸ rfl)
    · exact .inl (e ▸ rfl)

end Sys2Proof.Machine
end

section
/-! PROOFS. Encoding (30_encoding.md): decode and encode are inverse to each other (R55), the rows of match and mask (R52), the
illegal words (R53), and the printed words. -/

namespace Sys2Proof.Machine

/-! ### Decode and encode (R49 to R52, R55) -/

/-- Every encoding is an assembled word, and its opcode's row builds the command back from A and B. -/
theorem decode_encode (i : Instr) : decode (encode i) = .ok i := by
  cases i <;> exact decode_commandWord _ _ _

/-- A checked answer is given just when the check holds. -/
theorem ite_ok_eq_ok_iff {p : Prop} [Decidable p] {i j : Instr} {e : IllegalWord} :
    (if p then Except.ok i else Except.error e) = Except.ok j ↔ p ∧ i = j := by
  split_ifs with h <;> simp [h]

/-- A row without operands answers just when A and B are 0 (R52). -/
theorem rowNone_eq_ok_iff {a b : Byte} {i j : Instr} : rowNone a b i = .ok j ↔ (a = 0 ∧ b = 0) ∧ i = j := ite_ok_eq_ok_iff

/-- A row that takes A only answers just when B is 0 (R52). -/
theorem rowA_eq_ok_iff {a b : Byte} {mk : Byte → Instr} {j : Instr} : rowA a b mk = .ok j ↔ b = 0 ∧ mk a = j :=
  ite_ok_eq_ok_iff

/-- A row answers a command just for operands that its encoding carries: the fields it does not carry are checked to be 0. -/
theorem encode_of_decodeRow {opc a b : Byte} {i : Instr} (h : decodeRow opc a b = .ok i) : encode i = commandWord b a opc := by
  obtain ⟨j, hrow, henc⟩ | ⟨mk, hrow, henc⟩ | ⟨mk, hrow, henc⟩ | hrow := decodeRow_cases opc <;> rw [hrow] at h
  · obtain ⟨⟨rfl, rfl⟩, rfl⟩ := rowNone_eq_ok_iff.1 h
    exact henc
  · obtain ⟨rfl, rfl⟩ := rowA_eq_ok_iff.1 h
    exact henc a
  · obtain rfl := Except.ok.inj h
    exact henc a b
  · exact nomatch h

/-- A word that decodes is the encoding of what it decodes to: its RSV field is 0, and its row carries the other three. -/
theorem encode_of_decode {w : Word} {i : Instr} (h : decode w = .ok i) : encode i = w := by
  rw [decode] at h
  split at h
  case isTrue hrsv => rw [encode_of_decodeRow h, commandWord_fields w hrsv]
  case isFalse => exact nomatch h

/-- Settles O7: an encoding is looked up by its opcode, and a row checks every field that its encoding does not carry. -/
theorem decodeAndEncodeAgree : Obligations.DecodeAndEncodeAgree :=
  ⟨fun i _ => decode_encode i, fun _ _ => encode_of_decode⟩

/-- A word that is no command's encoding does not decode. -/
theorem decode_error_of_not_encode {w : Word} (h : ∀ i, encode i ≠ w) : ∃ e, decode w = .error e := by
  cases hd : decode w with
  | ok i => exact absurd (encode_of_decode hd) (h i)
  | error e => exact ⟨e, rfl⟩

/-! ### The rows of match and mask (R51, R52) -/

/-- What a row of the opcode map can be: its mask leaves out just the operand fields that the encoding of its command carries. -/
inductive RowForm (row : OpcodeRow) : Prop where
  | alone (hmask : row.mask = 0xFFFFFFFF) (henc : ∀ a b, encode (row.build a b) = commandWord 0 0 (opcField row.matchWord))
  | withA (hmask : row.mask = 0xFFFF00FF) (henc : ∀ a b, encode (row.build a b) = commandWord 0 a (opcField row.matchWord))
  | withAB (hmask : row.mask = 0xFF0000FF) (henc : ∀ a b, encode (row.build a b) = commandWord b a (opcField row.matchWord))

/-- The form of each row of R51's table. -/
theorem rowForm_of_mem : ∀ row ∈ opcodeRows, RowForm row := by
  simp only [opcodeRows, List.forall_mem_cons]
  exact ⟨.alone rfl fun _ _ => rfl, .alone rfl fun _ _ => rfl, .withA rfl fun _ _ => rfl, .alone rfl fun _ _ => rfl,
    .alone rfl fun _ _ => rfl, .alone rfl fun _ _ => rfl, .alone rfl fun _ _ => rfl, .alone rfl fun _ _ => rfl,
    .alone rfl fun _ _ => rfl, .alone rfl fun _ _ => rfl, .alone rfl fun _ _ => rfl, .alone rfl fun _ _ => rfl,
    .alone rfl fun _ _ => rfl, .withA rfl fun _ _ => rfl, .withAB rfl fun _ _ => rfl, .withA rfl fun _ _ => rfl,
    .withAB rfl fun _ _ => rfl, List.forall_mem_nil _⟩

/-- A row's match word is its opcode, with the other fields 0. -/
theorem matchWord_eq_opcode : ∀ row ∈ opcodeRows, row.matchWord = wordOf 0 0 0 (opcField row.matchWord) := by decide

/-- A word that matches a row has the row's opcode and is the encoding of the command that the row builds from A and B (R52). -/
theorem fields_of_hits {row : OpcodeRow} {w : Word} (hrow : row ∈ opcodeRows) (hw : row.hits w) :
    opcField w = opcField row.matchWord ∧ encode (row.build (aField w) (bField w)) = w := by
  obtain ⟨hmask, henc⟩ | ⟨hmask, henc⟩ | ⟨hmask, henc⟩ := rowForm_of_mem row hrow <;>
    rw [OpcodeRow.hits, hmask, matchWord_eq_opcode row hrow] at hw <;> rw [henc]
  · obtain ⟨hrsv, hb, ha, hopc⟩ := (masked_none w _).1 hw
    exact ⟨hopc, by simpa only [hb, ha, hopc] using commandWord_fields w hrsv⟩
  · obtain ⟨hrsv, hb, hopc⟩ := (masked_a w _).1 hw
    exact ⟨hopc, by simpa only [hb, hopc] using commandWord_fields w hrsv⟩
  · obtain ⟨hrsv, hopc⟩ := (masked_ab w _).1 hw
    exact ⟨hopc, by simpa only [hopc] using commandWord_fields w hrsv⟩

/-- A word that matches a row decodes to that row's command (R52). -/
theorem decode_of_hits {row : OpcodeRow} {w : Word} (hrow : row ∈ opcodeRows) (hw : row.hits w) :
    decode w = .ok (row.build (aField w) (bField w)) := by
  rw [← decode_encode, (fields_of_hits hrow hw).2]

/-- Every command has a row (R51). -/
theorem encodesRow : ∀ i : Instr, Laws.EncodesRow.Statement i
  | .nop => Laws.EncodesRow.nop
  | .tblInit => Laws.EncodesRow.tblInit
  | .keyExpand len => Laws.EncodesRow.keyExpand len
  | .encBlock => Laws.EncodesRow.encBlock
  | .decBlock => Laws.EncodesRow.decBlock
  | .release => Laws.EncodesRow.release
  | .loadState => Laws.EncodesRow.loadState
  | .subBytes => Laws.EncodesRow.subBytes
  | .invSubBytes => Laws.EncodesRow.invSubBytes
  | .shiftRows => Laws.EncodesRow.shiftRows
  | .invShiftRows => Laws.EncodesRow.invShiftRows
  | .mixColumns => Laws.EncodesRow.mixColumns
  | .invMixColumns => Laws.EncodesRow.invMixColumns
  | .addRoundKey round => Laws.EncodesRow.addRoundKey round
  | .tblRead sel index => Laws.EncodesRow.tblRead sel index
  | .ksRead index => Laws.EncodesRow.ksRead index
  | .gfMul a b => Laws.EncodesRow.gfMul a b

/-- A word that matches no row does not decode (R52). -/
theorem decode_error_of_no_hits {w : Word} (h : ∀ row ∈ opcodeRows, ¬ row.hits w) : ∃ e, decode w = .error e := by
  refine decode_error_of_not_encode fun i hi => ?_
  obtain ⟨row, hrow, hits, -⟩ := encodesRow i
  exact h row hrow (hi ▸ hits)

/-- No two rows have one opcode (R51). -/
theorem opcodeRows_pairwise_opcode : opcodeRows.Pairwise fun r r' => opcField r.matchWord ≠ opcField r'.matchWord := by
  decide

/-- Settles O6: a word that matches a row is the encoding of the row's command, every encoding matches a row, and the rows differ
in their opcodes. -/
theorem decodeFollowsMatchAndMask : Obligations.DecodeFollowsMatchAndMask := by
  refine ⟨fun w row => decode_of_hits, fun w => decode_error_of_no_hits, fun w => ?pairwise,
    fun s h => perform_illegal (decode_error_of_no_hits h)⟩
  case pairwise =>
    refine opcodeRows_pairwise_opcode.imp_of_mem fun hr hr' hne ⟨hw, hw'⟩ => hne ?_
    rw [← (fields_of_hits hr hw).1, (fields_of_hits hr' hw').1]

/-! ### Illegal words (R53) -/

/-- The fields of an encoding: RSV is 0, the opcode is in none of the gaps of R53, and the operand fields that its row lists as 0
are 0 (R51). -/
theorem fields_encode (i : Instr) :
    rsvField (encode i) = 0 ∧
    ((opcField (encode i)).toNat < 0x06 ∨
      (0x0F < (opcField (encode i)).toNat ∧ (opcField (encode i)).toNat < 0x18) ∨
      (0x1F < (opcField (encode i)).toNat ∧ (opcField (encode i)).toNat < 0x23)) ∧
    (opcField (encode i) ∉ [0x02#8, 0x17, 0x20, 0x21, 0x22] → aField (encode i) = 0) ∧
    (opcField (encode i) ∉ [0x20#8, 0x22] → bField (encode i) = 0) := by
  cases i <;> simp [encode]

/-- Settles O8: a word of the three classes is no command's encoding, whose fields are in none of them. -/
theorem illegalWordsCompleteWithIllegalCommand : Obligations.IllegalWordsCompleteWithIllegalCommand := by
  refine fun s hill => ⟨perform_illegal (decode_error_of_not_encode fun i hi => ?_), rfl⟩
  obtain ⟨hrsv, hopc, ha, hb⟩ := hi ▸ fields_encode i
  simp only [rsvField, opcField, aField, bField] at hrsv hopc ha hb
  obtain h | h | h | h | ⟨hmem, h⟩ | ⟨hmem, h⟩ := hill
  · exact h hrsv
  · omega
  · omega
  · omega
  · exact h (ha hmem)
  · exact h (hb hmem)

/-! ### Printed words (R55, 95_test_vectors.md) -/

/-- Settles O9: each printed word is the encoding of the command beside it. -/
theorem printedWordsDecode : Obligations.PrintedWordsDecode :=
  ⟨decode_encode (.keyExpand 16), decode_encode (.addRoundKey 10), decode_encode (.tblRead 2 0x53),
    decode_encode (.gfMul 0x57 0x83), decode_encode .nop, decode_encode .encBlock, decode_encode .subBytes,
    decode_encode (.ksRead 43)⟩

end Sys2Proof.Machine
end

section
/-! PROOFS. Field arithmetic (40_gf_tables.md section 1): the multiplication loop is linear in each operand, so that it is known
from the products of single bits (R58, R59). -/

namespace Sys2Proof.Machine

/-! ### Functions that are linear over exclusive-or -/

/-- Every byte is the exclusive-or of its bits: what holds of 0 and of single bits, and is kept by exclusive-or, holds of it. -/
theorem byte_xor_induction {P : Byte → Prop} (zero : P 0) (bit : ∀ k : Fin 8, P (BitVec.twoPow 8 k.val))
    (xor : ∀ a b, P a → P b → P (a ^^^ b)) (a : Byte) : P a := by
  have hbits : ∀ a : Byte, a = (List.finRange 8).foldr
      (fun k acc => (if a.getLsbD k.val then BitVec.twoPow 8 k.val else 0) ^^^ acc) 0 := by
    apply forall_byte
    decide +kernel
  rw [hbits a]
  induction List.finRange 8 with
  | nil => exact zero
  | cons k ks ih =>
    refine xor _ _ ?_ ih
    split
    exacts [bit k, zero]

/-- What is linear sends 0 to 0. -/
theorem map_zero_of_xor {f : Byte → Byte} (hf : ∀ a b, f (a ^^^ b) = f a ^^^ f b) : f 0 = 0 := by
  have h := hf 0 0
  rwa [BitVec.xor_self, BitVec.xor_self] at h

/-- Two functions of two bytes that are linear in each, and agree on single bits, are equal. -/
theorem bilinear_ext {f g : Byte → Byte → Byte}
    (hfl : ∀ a b c, f (a ^^^ b) c = f a c ^^^ f b c) (hfr : ∀ a b c, f a (b ^^^ c) = f a b ^^^ f a c)
    (hgl : ∀ a b c, g (a ^^^ b) c = g a c ^^^ g b c) (hgr : ∀ a b c, g a (b ^^^ c) = g a b ^^^ g a c)
    (hbits : ∀ j k : Fin 8, f (BitVec.twoPow 8 j.val) (BitVec.twoPow 8 k.val) =
      g (BitVec.twoPow 8 j.val) (BitVec.twoPow 8 k.val)) (a b : Byte) : f a b = g a b := by
  induction a using byte_xor_induction with
  | zero => exact (map_zero_of_xor (f := (f · b)) (hfl · · b)).trans (map_zero_of_xor (f := (g · b)) (hgl · · b)).symm
  | xor a c iha ihc => rw [hfl, hgl, iha, ihc]
  | bit j =>
    induction b using byte_xor_induction with
    | zero => exact (map_zero_of_xor (hfr _)).trans (map_zero_of_xor (hgr _)).symm
    | xor b c ihb ihc => rw [hfr, hgr, ihb, ihc]
    | bit k => exact hbits j k

/-- Folds add up when their steps do. -/
theorem foldl_xor {n : Nat} {f g h : BitVec n → Nat → BitVec n}
    (hstep : ∀ x y k, h (x ^^^ y) k = f x k ^^^ g y k) (ks : List Nat) (x y : BitVec n) :
    ks.foldl h (x ^^^ y) = ks.foldl f x ^^^ ks.foldl g y := by
  induction ks generalizing x y with
  | nil => rfl
  | cons k ks ih => rw [List.foldl_cons, hstep, ih, List.foldl_cons, List.foldl_cons]

/-- Conditional additions of one term add up when their conditions do. -/
theorem ite_xor_cond {n : Nat} (p q : Bool) (x y z : BitVec n) :
    (if p ^^ q then x ^^^ y ^^^ z else x ^^^ y) = (if p then x ^^^ z else x) ^^^ (if q then y ^^^ z else y) := by
  cases p <;> cases q <;> simp [BitVec.xor_assoc, BitVec.xor_comm z]

/-- Conditional additions under one condition add up. -/
theorem ite_xor_value {n : Nat} (p : Bool) (x y z w : BitVec n) :
    (if p then x ^^^ y ^^^ (z ^^^ w) else x ^^^ y) = (if p then x ^^^ z else x) ^^^ (if p then y ^^^ w else y) := by
  cases p
  · rfl
  · simp only [if_true]
    ac_rfl

/-! ### The loop of R58 -/

/-- The shift and the conditional reduction of one turn (R58). -/
def shiftReduce (x : BitVec 9) : BitVec 9 := if (x <<< 1).getLsbD 8 then x <<< 1 ^^^ 0x11B else x <<< 1

/-- The loop ends when the multiplier is 0. -/
theorem gfMulLoop_zero (n : Nat) (acc : Byte) (x : BitVec 9) : gfMulLoop n acc x 0 = acc := by
  cases n <;> rfl

/-- One turn; with a multiplier of 0 it changes nothing of the result, so the test for 0 can be left out. -/
theorem gfMulLoop_succ (n : Nat) (acc : Byte) (x : BitVec 9) (y : Byte) :
    gfMulLoop (n + 1) acc x y =
      gfMulLoop n (if y.getLsbD 0 then acc ^^^ x.setWidth 8 else acc) (shiftReduce x) (y >>> 1) := by
  by_cases hy : y = 0
  · subst hy
    exact (gfMulLoop_zero ..).trans (gfMulLoop_zero ..).symm
  · rw [gfMulLoop, if_neg hy]
    rfl

theorem shiftReduce_xor (x y : BitVec 9) : shiftReduce (x ^^^ y) = shiftReduce x ^^^ shiftReduce y := by
  rw [shiftReduce, BitVec.shiftLeft_xor_distrib, BitVec.getLsbD_xor, ite_xor_cond]
  rfl

/-- The loop is linear in the multiplicand. -/
theorem gfMulLoop_xor_left (n : Nat) (acc acc' : Byte) (x x' : BitVec 9) (y : Byte) :
    gfMulLoop n (acc ^^^ acc') (x ^^^ x') y = gfMulLoop n acc x y ^^^ gfMulLoop n acc' x' y := by
  induction n generalizing acc acc' x x' y with
  | zero => rfl
  | succ n ih => simp only [gfMulLoop_succ, shiftReduce_xor, BitVec.setWidth_xor, ite_xor_value, ih]

/-- The loop is linear in the multiplier. -/
theorem gfMulLoop_xor_right (n : Nat) (acc acc' : Byte) (x : BitVec 9) (y y' : Byte) :
    gfMulLoop n (acc ^^^ acc') x (y ^^^ y') = gfMulLoop n acc x y ^^^ gfMulLoop n acc' x y' := by
  induction n generalizing acc acc' x y y' with
  | zero => rfl
  | succ n ih =>
    simp only [gfMulLoop_succ, BitVec.getLsbD_xor, BitVec.ushiftRight_xor_distrib, ite_xor_cond, ih]

/-! ### The product (R59) -/

@[simp] theorem gfMul_zero (a : Byte) : gfMul a 0 = 0 := gfMulLoop_zero ..

theorem gfMul_xor_left (a b c : Byte) : gfMul (a ^^^ b) c = gfMul a c ^^^ gfMul b c := by
  rw [gfMul, BitVec.setWidth_xor]
  exact gfMulLoop_xor_left 8 0 0 _ _ c

theorem gfMul_xor_right (a b c : Byte) : gfMul a (b ^^^ c) = gfMul a b ^^^ gfMul a c := gfMulLoop_xor_right 8 0 0 _ b c

@[simp] theorem zero_gfMul (b : Byte) : gfMul 0 b = 0 := map_zero_of_xor (f := (gfMul · b)) (gfMul_xor_left · · b)

@[simp] theorem gfMul_one (a : Byte) : gfMul a 1 = a := by
  rw [gfMul, gfMulLoop_succ]
  exact (gfMulLoop_zero ..).trans (by simp)

theorem gfMul_comm (a b : Byte) : gfMul a b = gfMul b a :=
  bilinear_ext (g := fun a b => gfMul b a) gfMul_xor_left gfMul_xor_right (fun a b c => gfMul_xor_right c a b)
    (fun a b c => gfMul_xor_left b c a) (by decide +kernel) a b

/-- Multiplication by 2 is `xtime` (R59). -/
theorem gfMul_two (a : Byte) :
    gfMul a 2 = ((a.setWidth 9 <<< 1) ^^^ (if a.getLsbD 7 then 0x11B#9 else 0)).setWidth 8 := by
  have hcarry : (a.setWidth 9 <<< 1).getLsbD 8 = a.getLsbD 7 := by simp
  have hturns : gfMul a 2 = (shiftReduce (a.setWidth 9)).setWidth 8 := by
    rw [gfMul, gfMulLoop_succ, gfMulLoop_succ]
    exact (gfMulLoop_zero ..).trans (by simp)
  rw [hturns, shiftReduce, hcarry]
  split <;> simp

/-- Settles O14: the loop is linear in each operand, and the products of single bits commute. -/
theorem gfMulProperties : Obligations.GfMulProperties :=
  ⟨gfMul_comm, gfMul_zero, gfMul_one, gfMul_xor_right, gfMul_xor_left, gfMul_two, by decide, by decide, by decide,
    by decide⟩

/-! ### The polynomial product (R58) -/

theorem clmul_xor_left (a b c : Byte) : clmul (a ^^^ b) c = clmul a c ^^^ clmul b c :=
  foldl_xor (fun x y k => by simp only [BitVec.setWidth_xor, BitVec.shiftLeft_xor_distrib, ite_xor_value]) (List.range 8)
    0 0

theorem clmul_xor_right (a b c : Byte) : clmul a (b ^^^ c) = clmul a b ^^^ clmul a c :=
  foldl_xor (fun x y k => by simp only [BitVec.getLsbD_xor, ite_xor_cond]) (List.range 8) 0 0

theorem polyMod_xor (p q : BitVec 16) : polyMod (p ^^^ q) = polyMod p ^^^ polyMod q := by
  simp only [polyMod, ← BitVec.setWidth_xor]
  exact congrArg _ (foldl_xor (fun x y k => by simp only [BitVec.getLsbD_xor, ite_xor_cond]) (List.range 8) p q)

/-- Settles O15: both sides are linear in each operand, and agree on the products of single bits. -/
theorem gfMulIsPolynomialProduct : Obligations.GfMulIsPolynomialProduct :=
  bilinear_ext (g := fun a b => polyMod (clmul a b)) gfMul_xor_left gfMul_xor_right
    (fun a b c => by simp only [clmul_xor_left, polyMod_xor]) (fun a b c => by simp only [clmul_xor_right, polyMod_xor])
    (by decide +kernel)

end Sys2Proof.Machine
end

section
/-! PROOFS. The log tables (40_gf_tables.md section 2): the discrete logarithm (R60) and the inverse by it (R61), for the tables
TBL_INIT leaves (R66). -/

namespace Sys2Proof.Machine

/-! ### What TBL_INIT leaves (R65, R66) -/

/-- Without tables TBL_INIT leaves the printed ones. -/
theorem exec_tblInit_of_invalid {s : State} (hs : s.tblValid = false) :
    exec .tblInit s = .next (State.complete none { s with tbl := printedTables, tblValid := true }) := by
  rw [← builtTables_eq_printed]
  simp [exec, execTblInit, hs]

/-- So T is then the printed table store. -/
theorem exec_tblInit_tables {s : State} (hs : s.tblValid = false) :
    ∃ t, exec .tblInit s = .next t ∧ t.tbl = printedTables := ⟨_, exec_tblInit_of_invalid hs, rfl⟩

/-- With tables TBL_INIT only completes. -/
theorem exec_tblInit_of_valid {s : State} (hs : s.tblValid = true) : exec .tblInit s = .next (s.complete none) := by
  simp [exec, execTblInit, hs]

@[simp] theorem printedTables_log : printedTables.log = printedLog := rfl
@[simp] theorem printedTables_ilog : printedTables.ilog = printedIlog := rfl
@[simp] theorem printedTables_sbox : printedTables.sbox = printedSbox := rfl
@[simp] theorem printedTables_isbox : printedTables.isbox = printedIsbox := rfl

/-! ### Entries by number -/

/-- Entry `i` of a table is what reading it at the byte `i` returns. -/
theorem getElem_eq_tableGet (t : Table) {i : Nat} (hi : i < 256) : t[i] = tableGet t (BitVec.ofNat 8 i) := by
  simp only [tableGet, BitVec.toNat_ofNat, Nat.mod_eq_of_lt hi]

/-- The entries of the antilog table are the powers of 0x03. -/
theorem printedIlog_getElem {i : Nat} (hi : i < 256) : printedIlog[i] = power i := getElem_eq_tableGet _ hi

/-- A power of 0x03, read at its logarithm. -/
theorem tableGet_printedIlog (x : Byte) : tableGet printedIlog x = power x.toNat := by
  rw [power, BitVec.ofNat_toNat, BitVec.setWidth_eq]

/-! ### The logarithm and the inverse (R60, R61) -/

/-- The entry of the log table that the loop of R60 never writes. -/
theorem printedLog_zero : tableGet printedLog 0x00 = 0x00 := by
  rw [get_printedLog]
  decide +kernel

/-- The entry of the antilog table that the loop of R60 never writes. -/
theorem printedIlog_255 : tableGet printedIlog 0xFF = 0x00 := by
  rw [get_printedIlog]
  decide +kernel

/-- Settles O16: the antilog table holds the powers of 0x03, and the log table the exponent of each. -/
theorem logTablesAreDiscreteLogarithms : Obligations.LogTablesAreDiscreteLogarithms := by
  intro s hs
  obtain ⟨t, ht, htbl⟩ := exec_tblInit_tables hs
  refine ⟨t, ht, ?_⟩
  simp only [htbl, printedTables_log, printedTables_ilog]
  refine ⟨power_zero, fun i => ?next, ?wrap, fun i => ?log, fun x hx => ?ilog, printedLog_zero, printedIlog_255⟩
  case next => rw [printedIlog_getElem (by omega), printedIlog_getElem (by omega), power_succ]
  case wrap => rw [printedIlog_getElem (by omega), power_254]
  case log => rw [printedIlog_getElem (by omega), log_power]
  case ilog => rw [tableGet_printedIlog]; exact power_log x hx

/-- Beside 0, only 1 has the logarithm 0. -/
theorem log_ne_zero {a : Byte} (h0 : a ≠ 0) (h1 : a ≠ 1) : (tableGet printedLog a).toNat ≠ 0 := by
  intro hlog
  have hpower := (power_log a h0).2
  rw [hlog, power_zero] at hpower
  exact h1 hpower.symm

/-- The powers `k` and `255 - k` of 0x03 are inverse to each other. -/
theorem gfMul_power_power : ∀ k : Fin 255, k.val ≠ 0 → gfMul (power k.val) (power (255 - k.val)) = 0x01 := by
  simp only [power, get_printedIlog]
  decide +kernel

/-- The inverse by the tables reads the power of the opposite exponent. -/
theorem invOf_printed {a : Byte} (ha : a ≠ 0) : invOf printedTables a = power (255 - (tableGet printedLog a).toNat) := by
  have hlt := (power_log a ha).1
  rw [invOf, if_neg ha]
  refine (tableGet_printedIlog _).trans (congrArg power ?_)
  change (255 - tableGet printedLog a).toNat = _
  bv_omega

/-- The corner case: the exponent opposite to that of 1 is 255, of the unwritten entry. -/
theorem invOf_printed_one : invOf printedTables 0x01 = 0x00 := by
  have hlog : tableGet printedLog 0x01 = 0 := power_zero ▸ log_power 0
  rw [invOf_printed (by decide), hlog]
  exact printedIlog_255

/-- Settles O17: 255 - log[a] is the exponent opposite to a's, but for a = 1, where it is that of the unwritten entry. -/
theorem tableInverseAndItsCornerCase : Obligations.TableInverseAndItsCornerCase := by
  intro s hs
  obtain ⟨t, ht, htbl⟩ := exec_tblInit_tables hs
  refine ⟨t, ht, ?_⟩
  simp only [htbl, printedTables_log, printedTables_ilog]
  refine ⟨fun a => rfl, fun a ha => ?range, invOf_printed_one, fun a ha => ?inverse⟩
  case range =>
    have hlt := (power_log a ha).1
    omega
  case inverse =>
    obtain ⟨h0, h1⟩ : a ≠ 0 ∧ a ≠ 1 := by bv_omega
    obtain ⟨hlt, hpower⟩ := power_log a h0
    have hlog := log_ne_zero h0 h1
    have hinverse := gfMul_power_power ⟨_, hlt⟩ hlog
    rw [hpower, ← invOf_printed h0] at hinverse
    exact ⟨by omega, by omega, hinverse⟩

end Sys2Proof.Machine
end

section
/-! PROOFS. The boxes (40_gf_tables.md section 3): the affine transform (R62), the generic construction (R63) and
its patch (R64). -/

namespace Sys2Proof.Machine

/-! ### The affine transform (R62) -/

/-- A byte given by its bits has those bits. -/
theorem getLsbD_byteOfBits (f : Nat → Bool) (b : Fin 8) : (byteOfBits f).getLsbD b.val = f b.val := by
  have hbit (n : Nat) :
      ((List.range n).foldl (fun acc k => if f k then acc ||| (1#8 <<< k) else acc) (0 : Byte)).getLsbD b.val =
        (decide (b.val < n) && f b.val) := by
    induction n with
    | zero => simp
    | succ n ih =>
      rw [List.range_succ, List.foldl_append, List.foldl_cons, List.foldl_nil]
      by_cases hn : b.val = n
      · subst hn
        cases hf : f b.val <;> simp_all
      · have hlt : b.val < n + 1 ↔ b.val < n := by omega
        have hone : (1#8 <<< n).getLsbD b.val = false := by
          simp
          omega
        split <;> simp_all
  simpa [byteOfBits] using hbit 8

theorem affine_zero : affine 0x00 = 0x63 := by decide

/-! ### The generic construction (R63) -/

/-- The generic tables are those of the box loop over the logs with 0x00 in the unwritten entry. -/
theorem genericTables_eq : genericTables = boxLoop 256 0x00 (logsWith 0x00) := by rw [logsWith_zero, genericTables]

/-- What the box loop leaves: the logs as they were, the generic entries in the forward box, and at each entry of the inverse
box the last byte that has it, or 0x00 if none has. -/
theorem genericTables_spec :
    genericTables.log = (logsWith 0x00).log ∧ genericTables.ilog = (logsWith 0x00).ilog ∧
    (∀ a : Byte, tableGet genericTables.sbox a = genericEntry (logsWith 0x00) a) ∧
    (∀ a : Byte, (∀ b : Byte, a.toNat < b.toNat → genericEntry (logsWith 0x00) b ≠ genericEntry (logsWith 0x00) a) →
      tableGet genericTables.isbox (genericEntry (logsWith 0x00) a) = a) ∧
    (∀ y : Byte, (∀ a : Byte, genericEntry (logsWith 0x00) a ≠ y) → tableGet genericTables.isbox y = 0x00) := by
  obtain ⟨hlog, hilog, hsbox, hlast, hunwritten⟩ := boxLoop_spec 256 0 (logsWith 0x00) (by omega)
  rw [show BitVec.ofNat 8 0 = 0x00 from rfl, ← genericTables_eq] at hlog hilog hsbox hlast hunwritten
  refine ⟨hlog, hilog, fun a => ?_, fun a ha => ?_, fun y hy => ?_⟩
  · have := a.isLt
    rw [hsbox, if_pos (by omega)]
  · have h := hlast a.toNat (Nat.zero_le _) (by have := a.isLt; omega)
    rw [BitVec.ofNat_toNat, BitVec.setWidth_eq] at h
    exact h fun j hj hj256 => ha _ (by rw [BitVec.toNat_ofNat]; omega)
  · rw [hunwritten y fun k _ _ => hy _]
    exact tableGet_zeros y

/-- Before the patch the forward box is the affine transform of the inverse (R63). -/
theorem genericTables_sbox_eq_affine (a : Byte) : tableGet genericTables.sbox a = affine (invOf genericTables a) := by
  obtain ⟨hlog, hilog, hsbox, -, -⟩ := genericTables_spec
  rw [hsbox, genericEntry, invOf, invOf, hlog, hilog]

/-- The corner case of the inverse gives 1 the entry of 0. -/
theorem genericEntry_one : genericEntry (logsWith 0x00) 0x01 = 0x63 := by
  have hinv : invOf (logsWith 0x00) 0x01 = 0x00 := by
    rw [logsWith_zero, builtLogs]
    exact invOf_printed_one
  rw [genericEntry, hinv, affine_zero]

theorem genericTables_sbox_one : tableGet genericTables.sbox 0x01 = 0x63 := by
  rw [genericTables_eq, genericSbox, if_pos rfl, genericEntry_one]

theorem genericTables_sbox_of_ne_one {a : Byte} (ha : a ≠ 0x01) : tableGet genericTables.sbox a = tableGet printedSbox a := by
  rw [genericTables_eq, genericSbox, if_neg ha]

theorem genericTables_isbox {y : Byte} (h63 : y ≠ 0x63) (h7c : y ≠ 0x7C) :
    tableGet genericTables.isbox y = tableGet printedIsbox y := by
  rw [genericTables_eq, genericIsbox _ _ h63 h7c]

theorem printedSbox_inj {a b : Byte} (h : tableGet printedSbox a = tableGet printedSbox b) : a = b := by
  rw [← printedIsbox_printedSbox a, h, printedIsbox_printedSbox]

theorem printedSbox_zero : tableGet printedSbox 0x00 = 0x63 := by
  rw [get_printedSbox]
  decide +kernel

theorem printedSbox_one : tableGet printedSbox 0x01 = 0x7C := by
  rw [get_printedSbox]
  decide +kernel

/-- 0x7C is the one value that the generic forward box does not take: its place is taken by a second 0x63. -/
theorem genericTables_sbox_misses (v : Byte) : v = 0x7C ↔ ∀ a : Byte, tableGet genericTables.sbox a ≠ v := by
  constructor
  · rintro rfl a
    by_cases ha : a = 0x01
    · rw [ha, genericTables_sbox_one]
      decide
    · rw [genericTables_sbox_of_ne_one ha, ← printedSbox_one]
      exact mt printedSbox_inj ha
  · intro h
    by_contra hv
    refine h (tableGet printedIsbox v) ?_
    rw [genericTables_sbox_of_ne_one, printedSbox_printedIsbox]
    intro hone
    rw [← printedSbox_printedIsbox v, hone, printedSbox_one] at hv
    exact hv rfl

/-- 1 is the last byte that has the entry 0x63. -/
theorem genericTables_isbox_63 : tableGet genericTables.isbox 0x63 = 0x01 := by
  obtain ⟨-, -, -, hlast, -⟩ := genericTables_spec
  rw [← hlast 0x01, genericEntry_one]
  intro b hb
  have hne : b ≠ 0x00 ∧ b ≠ 0x01 := by bv_omega
  rw [genericEntry_one, genericEntry_logsWith _ _ hne.2, ← printedSbox_zero]
  exact mt printedSbox_inj hne.1

/-- No byte has the entry 0x7C. -/
theorem genericTables_isbox_7c : tableGet genericTables.isbox 0x7C = 0x00 := by
  obtain ⟨-, -, hsbox, -, hunwritten⟩ := genericTables_spec
  exact hunwritten _ fun a => hsbox a ▸ (genericTables_sbox_misses 0x7C).1 rfl a

/-- The generic boxes are inverse to each other but at 0, whose entry is 1's too. -/
theorem genericTables_isbox_sbox (x : Byte) : tableGet genericTables.isbox (tableGet genericTables.sbox x) = x ↔ x ≠ 0 := by
  by_cases hone : x = 0x01
  · rw [hone, genericTables_sbox_one, genericTables_isbox_63]
    decide
  rw [genericTables_sbox_of_ne_one hone]
  by_cases hzero : x = 0x00
  · rw [hzero, printedSbox_zero, genericTables_isbox_63]
    decide
  · rw [genericTables_isbox, printedIsbox_printedSbox]
    · exact iff_of_true rfl hzero
    · exact printedSbox_zero ▸ mt printedSbox_inj hzero
    · exact printedSbox_one ▸ mt printedSbox_inj hone

/-- Settles O18: over the logs the loop gives every byte its printed entry but 1, which gets 0's. -/
theorem genericBoxesBeforeThePatch : Obligations.GenericBoxesBeforeThePatch :=
  ⟨fun _ => getLsbD_byteOfBits _, affine_zero, by decide, genericTables_sbox_eq_affine, genericTables_sbox_one,
    (genericTables_sbox_of_ne_one (by decide)).trans printedSbox_zero, genericTables_isbox_63, genericTables_isbox_7c,
    genericTables_sbox_misses, fun _ => genericTables_sbox_of_ne_one, fun _ => genericTables_isbox, genericTables_isbox_sbox⟩

/-! ### The patch (R64) -/

/-- The patch writes one entry of the forward box. -/
theorem builtTables_sbox (a : Byte) :
    tableGet builtTables.sbox a = if a = 0x01 then 0x7C else tableGet genericTables.sbox a := tableGet_tablePut ..

/-- The patch writes two entries of the inverse box. -/
theorem builtTables_isbox (y : Byte) :
    tableGet builtTables.isbox y =
      if y = 0x63 then 0x00 else if y = 0x7C then 0x01 else tableGet genericTables.isbox y := by
  simp only [builtTables, patch, tableGet_tablePut]

/-- Settles O19: the patch writes the three entries and no other, and the boxes it leaves are the printed ones. -/
theorem patchRepairsTheBoxes : Obligations.PatchRepairsTheBoxes := by
  refine ⟨builtTables_sbox 0x01, builtTables_isbox 0x7C, builtTables_isbox 0x63, fun a ha => ?sbox, fun y h63 h7c => ?isbox,
    builtTables_boxes.2, builtTables_boxes.1, ?printed, fun v logs hlogs => ?anyValue⟩
  case sbox => rw [builtTables_sbox, if_neg ha]
  case isbox => rw [builtTables_isbox, if_neg h63, if_neg h7c]
  case printed => rw [builtTables_eq_printed, printedTables_isbox]
  case anyValue =>
    rw [hlogs, builtLogs]
    exact patch_boxLoop v

end Sys2Proof.Machine
end

section
/-! PROOFS. The commands of the table generator (40_gf_tables.md section 4): TBL_INIT (R66), TBL_READ (R67), GF_MUL (R68). -/

namespace Sys2Proof.Machine

/-- A byte zero-extended to a word (R67, R68). -/
theorem setWidth_32_eq_append (x : Byte) : x.setWidth 32 = 0#24 ++ x := BitVec.setWidth_eq_append (by decide)

/-- With tables and a selector of one of them, TBL_READ leaves the entry in RDATA. -/
theorem exec_tblRead_of_selected {s : State} {sel : Byte} {t : Table} (hs : s.tblValid = true)
    (ht : selectedTable sel s.tbl = some t) (index : Byte) :
    exec (.tblRead sel index) s = .next (State.complete none { s with rdata := 0#24 ++ t[index.toNat] }) := by
  simp only [exec, execTblRead, needTables_true s _ hs, ht, finish_eq, setWidth_32_eq_append]
  rfl

/-- With tables and another selector, it fails. -/
theorem exec_tblRead_of_unselected {s : State} {sel : Byte} (hs : s.tblValid = true)
    (ht : selectedTable sel s.tbl = none) (index : Byte) :
    exec (.tblRead sel index) s = .next (s.complete (some .badArgument)) := by
  simp only [exec, execTblRead, needTables_true s _ hs, ht, raise_eq]

/-- No selector above 3 names a table. -/
theorem selectedTable_eq_none {sel : Byte} (h : sel.toNat > 3) (t : Tables) : selectedTable sel t = none := by
  obtain ⟨h0, h1, h2, h3⟩ : sel ≠ 0 ∧ sel ≠ 1 ∧ sel ≠ 2 ∧ sel ≠ 3 := by bv_omega
  rw [selectedTable, if_neg h0, if_neg h1, if_neg h2, if_neg h3]

/-- Settles O21: the selector names its table, and the tables' check comes before it. -/
theorem tblReadReturnsTheSelectedByte : Obligations.TblReadReturnsTheSelectedByte := by
  refine ⟨encodesWithAB_of_row fun _ _ => rfl, fun s sel index => ⟨fun hs => ?invalid, fun hs => ⟨fun t ht => ?selected,
    fun hsel => ?beyond⟩⟩, printedLog_zero, printedIlog_255, ?isbox⟩
  case invalid => exact needTables_false s _ hs
  case selected =>
    refine exec_tblRead_of_selected hs ?_ index
    obtain ⟨rfl, rfl⟩ | ⟨rfl, rfl⟩ | ⟨rfl, rfl⟩ | ⟨rfl, rfl⟩ := ht <;> rfl
  case beyond => exact exec_tblRead_of_unselected hs (selectedTable_eq_none hsel _) index
  case isbox => rw [← printedSbox_one, printedIsbox_printedSbox]

/-- Settles O20: TBL_INIT's two cases, and the table it leaves read at 1. -/
theorem tblInitBuildsThePrintedTables : Obligations.TblInitBuildsThePrintedTables := by
  refine ⟨encodesAlone_of_row fun _ _ => rfl, fun s => exec_tblInit_of_invalid, fun s => exec_tblInit_of_valid, _, _,
    exec_tblInit_of_invalid rfl, by decide, exec_tblRead_of_selected rfl rfl 0x01, ?_⟩
  change 0#24 ++ tableGet printedSbox 0x01 = 0x0000007C
  rw [printedSbox_one]
  rfl

/-- GF_MUL leaves the product in RDATA. -/
theorem exec_gfMul (a b : Byte) (s : State) :
    exec (.gfMul a b) s = .next (State.complete none { s with rdata := 0#24 ++ gfMul a b }) := by
  rw [← setWidth_32_eq_append]
  rfl

/-- Settles O22: GF_MUL checks nothing; the corner cases are those of the product. -/
theorem gfMulReturnsTheProduct : Obligations.GfMulReturnsTheProduct :=
  ⟨encodesWithAB_of_row fun _ _ => rfl, fun s a b => exec_gfMul a b s,
    fun x => ⟨zero_gfMul x, gfMul_zero x, (gfMul_comm 1 x).trans (gfMul_one x)⟩, by decide, by decide⟩

end Sys2Proof.Machine
end

section
/-! PROOFS. The key schedule (41_key_schedule.md sections 2 and 3): its word operations and round constants (R70, R71), and that
R72's equations describe one schedule. -/

namespace Sys2Proof.Machine

/-! ### RotWord, SubWord and the round constant (R70, R71) -/

/-- RotWord rotates the word left by one byte (R70). -/
theorem rotWord_eq_append (w : Word) : rotWord w = w.extractLsb' 0 24 ++ w.extractLsb' 24 8 := by
  apply BitVec.eq_of_getLsbD_eq
  intro i _
  rw [rotWord, getLsbD_wordOf, getLsbD_append_any]
  simp only [getLsbD_byteOf, BitVec.getLsbD_extractLsb']
  grind

/-- Byte r of RotWord is the byte after it, the last one's being byte 0 (R70). -/
theorem byteOf_rotWord (w : Word) (r : Fin 4) : byteOf (rotWord w) r = byteOf w (r + 1) := by
  rw [rotWord, byteOf_wordOf]
  match r with
  | 0 | 1 | 2 | 3 => rfl

/-- SubWord goes byte by byte (R70). -/
theorem byteOf_subWord (t : Tables) (w : Word) (r : Fin 4) : byteOf (subWord t w) r = tableGet t.sbox (byteOf w r) := by
  rw [subWord, byteOf_wordOf]
  match r with
  | 0 | 1 | 2 | 3 => rfl

/-- The worked value of SubWord (R70). -/
theorem subWord_example : subWord printedTables 0x0D0E0F0C = 0xD7AB76FE := by
  simp only [subWord, printedTables_sbox, get_printedSbox]
  decide +kernel

/-! ### One schedule (R72) -/

/-- R72's equations leave no choice: the key gives the first words, the earlier words each later one, and the rest is zero. -/
theorem IsSchedule.unique {t : Tables} {key : Vector Word 8} {nk : Nat} (hk : 0 < nk) (hk8 : nk ≤ 8)
    {w w' : Vector Word 60} (hw : IsSchedule t key nk w) (hw' : IsSchedule t key nk w') : w = w' := by
  obtain ⟨hkey, hlater, hzero⟩ := hw
  obtain ⟨hkey', hlater', hzero'⟩ := hw'
  have hwords (i : Nat) : i < 60 → scheduleWord w i = scheduleWord w' i := by
    induction i using Nat.strong_induction_on with
    | _ i ih =>
      intro hi
      obtain hfirst | hmiddle | hlast : i < nk ∨ (nk ≤ i ∧ i < 4 * (nk + 7)) ∨ 4 * (nk + 7) ≤ i := by omega
      · exact (hkey ⟨i, by omega⟩ hfirst).trans (hkey' ⟨i, by omega⟩ hfirst).symm
      · rw [hlater i hmiddle.1 hmiddle.2, hlater' i hmiddle.1 hmiddle.2, ih (i - nk) (by omega) (by omega),
          ih (i - 1) (by omega) (by omega)]
      · rw [hzero i hlast hi, hzero' i hlast hi]
  apply Vector.ext
  intro i hi
  simpa only [scheduleWord_of_lt _ i hi] using hwords i hi

/-- A store is what the expansion leaves exactly if it is the schedule of the key. -/
theorem eq_expand_iff (t : Tables) (key : Vector Word 8) {nk : Nat} (hk : nk = 4 ∨ nk = 6 ∨ nk = 8) (w : Vector Word 60) :
    w = (expand t key nk).1 ↔ IsSchedule t key nk w := by
  constructor
  · rintro rfl
    exact expand_isSchedule t key hk
  · exact fun hw => hw.unique (by omega) (by omega) (expand_isSchedule t key hk)

/-- The expansion sees the first `nk` words of the key only. -/
theorem expand_congr_key (t : Tables) {key key' : Vector Word 8} {nk : Nat}
    (h : ∀ i : Fin 8, i.val < nk → key[i] = key'[i]) : expand t key nk = expand t key' nk := by
  have hstore : keyStore nk key = keyStore nk key' := by
    refine congrArg tab (funext fun i => ?_)
    split
    · split
      · exact h ⟨i.val, ‹_›⟩ ‹_›
      · rfl
    · rfl
  rw [expand, hstore, expand]

/-! ### The worked example (R72, 95_test_vectors.md) -/

/-- The 16-byte key 00 01 .. 0F as KEY holds it. -/
def exampleKey : Vector Word 8 := #v[0x00010203, 0x04050607, 0x08090A0B, 0x0C0D0E0F, 0, 0, 0, 0]

/-- The words of its schedule that the example prints. -/
theorem expand_exampleKey_words :
    (expand printedTables exampleKey 4).1[4] = 0xD6AA74FD ∧ (expand printedTables exampleKey 4).1[5] = 0xD2AF72FA ∧
    (expand printedTables exampleKey 4).1[6] = 0xDAA678F1 ∧ (expand printedTables exampleKey 4).1[7] = 0xD6AB76FE ∧
    (expand printedTables exampleKey 4).1[43] = 0x4D2B30C5 := by
  decide +kernel

/-- Any key that begins with these four words expands as it does. -/
theorem expand_eq_exampleKey (t : Tables) {key : Vector Word 8} (h0 : key[0] = 0x00010203) (h1 : key[1] = 0x04050607)
    (h2 : key[2] = 0x08090A0B) (h3 : key[3] = 0x0C0D0E0F) : expand t key 4 = expand t exampleKey 4 := by
  refine expand_congr_key t fun i hi => ?_
  match i with
  | 0 => exact h0
  | 1 => exact h1
  | 2 => exact h2
  | 3 => exact h3

/-- Settles O24: the expansion is a schedule of the key, and there is one only. -/
theorem expansionSatisfiesTheRecurrence : Obligations.ExpansionSatisfiesTheRecurrence := by
  refine ⟨fun t key nk hk => eq_expand_iff t key hk, fun key h0 h1 h2 h3 => ?_⟩
  rw [expand_eq_exampleKey printedTables h0 h1 h2 h3]
  exact expand_exampleKey_words

end Sys2Proof.Machine
end

section
/-! PROOFS. The commands of the key schedule (41_key_schedule.md section 4): KEY_EXPAND (R73), KS_READ (R74), RELEASE (R75). -/

namespace Sys2Proof.Machine

/-! ### KEY_EXPAND (R69, R73) -/

/-- `s` with the context of its latched key of `nk` words, and RCON as the expansion leaves it. -/
def State.withSchedule (nk : Nat) (s : State) : State :=
  { s with
    ctx := { w := (expand s.tbl s.lkey nk).1, nk := BitVec.ofNat 4 nk, nr := BitVec.ofNat 4 (nk + 6) }
    rcon := (expand s.tbl s.lkey nk).2 }

@[simp] theorem withSchedule_nk (nk : Nat) (s : State) : (s.withSchedule nk).ctx.nk = BitVec.ofNat 4 nk := rfl
@[simp] theorem withSchedule_nr (nk : Nat) (s : State) : (s.withSchedule nk).ctx.nr = BitVec.ofNat 4 (nk + 6) := rfl

/-- A length of 4, 6 or 8 words is a valid one (R69). -/
theorem keyWords_of_length {len : Byte} {nk : Nat} (hlen : len.toNat = 4 * nk) (hk : nk = 4 ∨ nk = 6 ∨ nk = 8) :
    keyWords len = some (BitVec.ofNat 4 nk) := by
  obtain rfl : len = BitVec.ofNat 8 (4 * nk) := by rw [← hlen, BitVec.ofNat_toNat, BitVec.setWidth_eq]
  obtain rfl | rfl | rfl := hk <;> rfl

/-- Every other length is none (R69). -/
theorem length_or_keyWords_none (len : Byte) :
    (∃ nk : Nat, (nk = 4 ∨ nk = 6 ∨ nk = 8) ∧ len.toNat = 4 * nk) ∨ keyWords len = none := by
  obtain ⟨rfl, -⟩ | ⟨rfl, -⟩ | ⟨rfl, -⟩ | ⟨-, -, -, hnone⟩ := keyWords_cases len
  · exact .inl ⟨4, by simp, rfl⟩
  · exact .inl ⟨6, by simp, rfl⟩
  · exact .inl ⟨8, by simp, rfl⟩
  · exact .inr hnone

/-- With tables and a valid length, KEY_EXPAND creates the context. -/
theorem exec_keyExpand_of_length {s : State} {len : Byte} {nk : Nat} (hs : s.tblValid = true) (hlen : len.toNat = 4 * nk)
    (hk : nk = 4 ∨ nk = 6 ∨ nk = 8) : exec (.keyExpand len) s = .next ((s.withSchedule nk).complete none) := by
  simp only [exec, execKeyExpand, needTables_true s _ hs, keyWords_of_length hlen hk]
  obtain rfl | rfl | rfl := hk <;> rfl

/-- With tables and another length, it fails. -/
theorem exec_keyExpand_of_invalid {s : State} {len : Byte} (hs : s.tblValid = true) (hlen : keyWords len = none) :
    exec (.keyExpand len) s = .next (s.complete (some .invalidKeyLength)) := by
  simp only [exec, execKeyExpand, needTables_true s _ hs, hlen, raise_eq]

/-- When it succeeds, the context it leaves is that of a valid length. -/
theorem exec_keyExpand_success {s t : State} {len : Byte} (h : exec (.keyExpand len) s = .next t) (herr : t.err = none) :
    ∃ nk : Nat, (nk = 4 ∨ nk = 6 ∨ nk = 8) ∧ t = (s.withSchedule nk).complete none := by
  cases hs : s.tblValid with
  | false =>
    obtain rfl := Host.Outcome.next.inj ((needTables_false s _ hs).symm.trans h)
    exact nomatch herr
  | true =>
    obtain ⟨nk, hk, hlen⟩ | hnone := length_or_keyWords_none len
    · exact ⟨nk, hk, Host.Outcome.next.inj (h.symm.trans (exec_keyExpand_of_length hs hlen hk))⟩
    · obtain rfl := Host.Outcome.next.inj ((exec_keyExpand_of_invalid hs hnone).symm.trans h)
      exact nomatch herr

/-- STATUS after a success, with tables and without an overrun, shows the context only (R26). -/
theorem status_complete_none {s : State} (hs : s.tblValid = true) (ho : s.ovr = false) :
    (s.complete none).status =
      0#12 ++ s.ctx.nr ++ s.ctx.nk ++ 0#3 ++ 0#1 ++ 0#4 ++ BitVec.ofBool (s.ctx.nk != 0) ++ 1#1 ++ 1#1 ++ 0#1 := by
  simp only [State.status, State.keyValid, complete_ctx, complete_ovr, complete_err, complete_tblValid, hs, ho]
  rfl

/-- After a KEY_EXPAND of `nk` words it shows `nk` and its number of rounds (R73). -/
theorem exec_keyExpand_status {s : State} {len : Byte} {nk : Nat} (hs : s.tblValid = true) (ho : s.ovr = false)
    (hlen : len.toNat = 4 * nk) (hk : nk = 4 ∨ nk = 6 ∨ nk = 8) :
    ∃ t, exec (.keyExpand len) s = .next t ∧
      t.status = 0#12 ++ BitVec.ofNat 4 (nk + 6) ++ BitVec.ofNat 4 nk ++ 0x00E#12 := by
  refine ⟨_, exec_keyExpand_of_length hs hlen hk, ?_⟩
  rw [status_complete_none (s := s.withSchedule nk) hs ho, withSchedule_nk, withSchedule_nr]
  obtain rfl | rfl | rfl := hk <;> rfl

/-- Settles O25: a valid length is a number of words whose schedule the expansion leaves; any other is checked after T. -/
theorem keyExpandCreatesTheContext : Obligations.KeyExpandCreatesTheContext := by
  refine ⟨encodesWithA_of_row fun _ _ => rfl, fun s len => ⟨fun hs => ?notReady, fun hs h16 h24 h32 => ?invalid,
    fun nk hs hlen hk => ?valid⟩, fun s hs ho => ?status⟩
  case notReady => exact needTables_false s _ hs
  case invalid =>
    exact exec_keyExpand_of_invalid hs (by rw [keyWords, if_neg h16, if_neg h24, if_neg h32])
  case valid => exact ⟨_, _, expand_isSchedule s.tbl s.lkey hk, exec_keyExpand_of_length hs hlen hk⟩
  case status =>
    exact ⟨exec_keyExpand_status (nk := 4) hs ho rfl (by simp), exec_keyExpand_status (nk := 6) hs ho rfl (by simp),
      exec_keyExpand_status (nk := 8) hs ho rfl (by simp)⟩

/-- After KEY_EXPAND, RCON has been used once for each multiple of `nk` below the end of the schedule (R71). -/
theorem exec_keyExpand_rcon {s : State} {len : Byte} {nk : Nat} (hs : s.tblValid = true) (hlen : len.toNat = 4 * nk)
    (hk : nk = 4 ∨ nk = 6 ∨ nk = 8) :
    ∃ t, exec (.keyExpand len) s = .next t ∧ t.rcon = rconAt ((4 * (nk + 7) - 1) / nk) :=
  ⟨_, exec_keyExpand_of_length hs hlen hk, expand_rcon s.tbl s.lkey hk⟩

/-- Settles O23: the word operations byte by byte, and RCON counted by the expansion loop. -/
theorem wordOperationsAndRoundConstants : Obligations.WordOperationsAndRoundConstants :=
  ⟨rotWord_eq_append, byteOf_rotWord, byteOf_subWord, by decide, subWord_example, rconWord_eq, by decide,
    fun _ hs => ⟨exec_keyExpand_rcon (nk := 4) hs rfl (by simp), exec_keyExpand_rcon (nk := 6) hs rfl (by simp),
      exec_keyExpand_rcon (nk := 8) hs rfl (by simp)⟩⟩

/-! ### KS_READ (R74) -/

/-- With a context and an index in its schedule, KS_READ leaves the word in RDATA. -/
theorem exec_ksRead_of_lt {s : State} {index : Byte} (hs : s.keyValid = true) (hi : index.toNat < 4 * (s.ctx.nr.toNat + 1)) :
    exec (.ksRead index) s = .next (State.complete none { s with rdata := scheduleWord s.ctx.w index.toNat }) := by
  simp only [exec, execKsRead, needContext_true s _ hs, indexInRange, hi, decide_true, needArgument_true, finish_eq]

/-- With a context and an index past its schedule, it fails. -/
theorem exec_ksRead_of_ge {s : State} {index : Byte} (hs : s.keyValid = true) (hi : index.toNat ≥ 4 * (s.ctx.nr.toNat + 1)) :
    exec (.ksRead index) s = .next (s.complete (some .badArgument)) := by
  simp only [exec, execKsRead, needContext_true s _ hs, indexInRange, Nat.not_lt.2 hi, decide_false, needArgument_false]

/-- After a successful KEY_EXPAND, KS_READ returns the words of the expansion. -/
theorem exec_ksRead_after_keyExpand (s : State) {nk : Nat} (hk : nk = 4 ∨ nk = 6 ∨ nk = 8) {index : Byte}
    (hi : index.toNat < 4 * (nk + 7)) :
    ∃ u, exec (.ksRead index) ((s.withSchedule nk).complete none) = .next u ∧
      u.rdata = scheduleWord (expand s.tbl s.lkey nk).1 index.toNat ∧ u.err = none := by
  obtain ⟨hnk, hnr⟩ : BitVec.ofNat 4 nk ≠ 0 ∧ (BitVec.ofNat 4 (nk + 6)).toNat = nk + 6 := by
    obtain rfl | rfl | rfl := hk <;> decide
  have hvalid : ((s.withSchedule nk).complete none).keyValid = true := (keyValid_iff_nk _).2 hnk
  have hrange : index.toNat < 4 * (((s.withSchedule nk).complete none).ctx.nr.toNat + 1) := by
    rw [complete_ctx, withSchedule_nr, hnr]
    exact hi
  exact ⟨_, exec_ksRead_of_lt hvalid hrange, rfl, rfl⟩

/-- Settles O26: the checks in their order, and the words of an expansion read back. -/
theorem ksReadReturnsTheScheduleWord : Obligations.KsReadReturnsTheScheduleWord := by
  refine ⟨encodesWithA_of_row fun _ _ => rfl, fun s index => ⟨fun hs => ?noContext, exec_ksRead_of_ge, exec_ksRead_of_lt⟩,
    fun w i => scheduleWord_of_lt w i.val i.isLt, fun s t len i hexec herr hi => ?rawKey,
    fun s hs htbl h0 h1 h2 h3 => ?lastWord⟩
  case noContext => exact needContext_false s _ hs
  case rawKey =>
    obtain ⟨nk, hk, rfl⟩ := exec_keyExpand_success hexec herr
    have hindex : (BitVec.ofNat 8 i.val).toNat = i.val := by rw [BitVec.toNat_ofNat]; omega
    have hlt : i.val < nk := by
      obtain rfl | rfl | rfl := hk <;> exact hi
    obtain ⟨u, hu, hrdata, huerr⟩ := exec_ksRead_after_keyExpand s hk (index := BitVec.ofNat 8 i.val) (by omega)
    obtain ⟨hkey, -, -⟩ := expand_isSchedule s.tbl s.lkey hk
    exact ⟨u, hu, by rw [hrdata, hindex, hkey i hlt], huerr⟩
  case lastWord =>
    obtain ⟨u, hu, hrdata, -⟩ := exec_ksRead_after_keyExpand s (nk := 4) (by simp) (index := 43) (by decide)
    refine ⟨_, u, exec_keyExpand_of_length hs rfl (by simp), hu, ?_⟩
    rw [hrdata, htbl, expand_eq_exampleKey printedTables h0 h1 h2 h3]
    obtain ⟨-, -, -, -, hlast⟩ := expand_exampleKey_words
    exact hlast

/-! ### RELEASE (R75) -/

/-- `s` without a context, and with ST and RDATA zeroed. -/
def State.released (s : State) : State :=
  { s with ctx := { w := Vector.replicate 60 0, nk := 0, nr := 0 }, st := Vector.replicate 16 0, rdata := 0 }

@[simp] theorem released_ctx (s : State) : s.released.ctx = { w := Vector.replicate 60 0, nk := 0, nr := 0 } := rfl

/-- RELEASE checks nothing. -/
theorem exec_release (s : State) : exec .release s = .next (s.released.complete none) := rfl

/-- With tables but no context, ENC_BLOCK fails. -/
theorem exec_encBlock_of_noContext {s : State} (hs : s.tblValid = true) (hk : s.keyValid = false) :
    exec .encBlock s = .next (s.complete (some .noContext)) := by
  simp only [exec, execEncBlock, needTables_true s _ hs, needContext_false s _ hk]

/-- Settles O27: RELEASE leaves no context, whatever it found. -/
theorem releaseDestroysTheContext : Obligations.ReleaseDestroysTheContext := by
  refine ⟨encodesAlone_of_row fun _ _ => rfl, exec_release, fun s t hs ho hexec => ?_⟩
  obtain rfl := Host.Outcome.next.inj ((exec_release s).symm.trans hexec)
  refine ⟨?_, _, exec_encBlock_of_noContext hs rfl, rfl⟩
  rw [status_complete_none (s := s.released) hs ho, released_ctx]
  rfl

end Sys2Proof.Machine
end

section
/-! PROOFS. The round primitives as functions of a block (42_round_engine.md): the cells that each leaves (R77 to R83), and the
laws of R84. -/

namespace Sys2Proof.Machine

/-! ### Substitution of bytes (R77, R78) -/

theorem getElem_subBytes (t : Tables) (s : Block) (i : Fin 16) : (subBytes t s)[i] = t.sbox[s[i].toNat] := tab_getElem ..

theorem getElem_invSubBytes (t : Tables) (s : Block) (i : Fin 16) : (invSubBytes t s)[i] = t.isbox[s[i].toNat] :=
  tab_getElem ..

@[simp] theorem cell_subBytes (t : Tables) (s : Block) (r c : Fin 4) :
    cell (subBytes t s) r c = tableGet t.sbox (cell s r c) := tab_getElem ..

@[simp] theorem cell_invSubBytes (t : Tables) (s : Block) (r c : Fin 4) :
    cell (invSubBytes t s) r c = tableGet t.isbox (cell s r c) := tab_getElem ..

/-- A box undone by the inverse box makes a substitution undone by the inverse substitution. -/
theorem invSubBytes_subBytes {t : Tables} (h : ∀ x : Byte, tableGet t.isbox (tableGet t.sbox x) = x) (b : Block) :
    invSubBytes t (subBytes t b) = b := by
  apply block_ext_cell
  simp [h]

theorem printedSbox_ne_self : ∀ x : Byte, tableGet printedSbox x ≠ x := by
  apply forall_byte
  simp only [get_printedSbox]
  decide +kernel

/-! ### Rotation of rows (R79, R80) -/

@[simp] theorem cell_shiftRows (s : Block) (r c : Fin 4) : cell (shiftRows s) r c = cell s r (c + r) := cell_blockOf ..

@[simp] theorem cell_invShiftRows (s : Block) (r c : Fin 4) : cell (invShiftRows s) r c = cell s r (c - r) := cell_blockOf ..

theorem invShiftRows_shiftRows (b : Block) : invShiftRows (shiftRows b) = b := by
  apply block_ext_cell
  simp

theorem shiftRows_four_times (b : Block) : shiftRows (shiftRows (shiftRows (shiftRows b))) = b := by
  have hturn : ∀ r c : Fin 4, c + r + r + r + r = c := by decide
  apply block_ext_cell
  simp [hturn]

/-- Substitution acts on each cell alone, so that it commutes with the rotation of rows. -/
theorem subBytes_shiftRows (t : Tables) (b : Block) : subBytes t (shiftRows b) = shiftRows (subBytes t b) := by
  apply block_ext_cell
  simp

theorem invSubBytes_invShiftRows (t : Tables) (b : Block) :
    invSubBytes t (invShiftRows b) = invShiftRows (invSubBytes t b) := by
  apply block_ext_cell
  simp

/-! ### The round key (R83) -/

@[simp] theorem cell_addRoundKey (w : Vector Word 60) (round : Nat) (s : Block) (r c : Fin 4) :
    cell (addRoundKey w round s) r c = cell s r c ^^^ byteOf (scheduleWord w (4 * round + c.val)) r := cell_blockOf ..

theorem addRoundKey_addRoundKey (w : Vector Word 60) (round : Nat) (b : Block) :
    addRoundKey w round (addRoundKey w round b) = b := by
  apply block_ext_cell
  simp

/-- The result depends only on the four words of the round key. -/
theorem addRoundKey_of_words {w : Vector Word 60} {round : Nat} {k : Vector Word 4}
    (hk : ∀ c : Fin 4, scheduleWord w (4 * round + c.val) = k[c]) (s : Block) :
    addRoundKey w round s = blockOf fun r c => cell s r c ^^^ byteOf k[c] r :=
  congrArg blockOf (funext₂ fun r c => by rw [hk])

/-! ### The product with a rotating matrix (R81, R82) -/

theorem one_gfMul (a : Byte) : gfMul 1 a = a := (gfMul_comm 1 a).trans (gfMul_one a)

/-- Both sides are linear in each of the three factors, and agree on single bits. -/
theorem gfMul_assoc (a b c : Byte) : gfMul (gfMul a b) c = gfMul a (gfMul b c) := by
  induction c using byte_xor_induction with
  | zero => simp only [gfMul_zero]
  | xor c d ihc ihd => simp only [gfMul_xor_right, ihc, ihd]
  | bit k =>
    refine bilinear_ext (f := fun a b => gfMul (gfMul a b) _) (g := fun a b => gfMul a (gfMul b _)) ?_ ?_ ?_ ?_ ?bits a b
    case bits =>
      revert k
      decide +kernel
    all_goals simp only [gfMul_xor_left, gfMul_xor_right, forall_const]

/-- The four cells of a column, with the matrix written out row by row. -/
theorem column_mixWith (p0 p1 p2 p3 : Byte) (s : Block) (c : Fin 4) :
    cell (mixWith #v[p0, p1, p2, p3] s) 0 c =
      gfMul p0 (cell s 0 c) ^^^ gfMul p1 (cell s 1 c) ^^^ gfMul p2 (cell s 2 c) ^^^ gfMul p3 (cell s 3 c) ∧
    cell (mixWith #v[p0, p1, p2, p3] s) 1 c =
      gfMul p3 (cell s 0 c) ^^^ gfMul p0 (cell s 1 c) ^^^ gfMul p1 (cell s 2 c) ^^^ gfMul p2 (cell s 3 c) ∧
    cell (mixWith #v[p0, p1, p2, p3] s) 2 c =
      gfMul p2 (cell s 0 c) ^^^ gfMul p3 (cell s 1 c) ^^^ gfMul p0 (cell s 2 c) ^^^ gfMul p1 (cell s 3 c) ∧
    cell (mixWith #v[p0, p1, p2, p3] s) 3 c =
      gfMul p1 (cell s 0 c) ^^^ gfMul p2 (cell s 1 c) ^^^ gfMul p3 (cell s 2 c) ^^^ gfMul p0 (cell s 3 c) :=
  ⟨cell_blockOf _ 0 c, cell_blockOf _ 1 c, cell_blockOf _ 2 c, cell_blockOf _ 3 c⟩

/-- Counted from its own row, every cell is the same combination of its column: the matrix is rotating. -/
theorem cell_mixWith (top : Vector Byte 4) (s : Block) (r c : Fin 4) :
    cell (mixWith top s) r c =
      gfMul top[0] (cell s r c) ^^^ gfMul top[1] (cell s (r + 1) c) ^^^ gfMul top[2] (cell s (r + 2) c) ^^^
        gfMul top[3] (cell s (r + 3) c) := by
  rw [mixWith, cell_blockOf]
  match r with
  | 0 => rfl
  | 1 | 2 | 3 =>
    simp only [Fin.reduceSub, Fin.reduceAdd, Fin.isValue]
    ac_rfl

/-- Row 0 of the product of two rotating matrices, from their rows 0. -/
def mixProduct (p q : Vector Byte 4) : Vector Byte 4 :=
  tab fun k => gfMul p[0] q[k] ^^^ gfMul p[1] q[k - 1] ^^^ gfMul p[2] q[k - 2] ^^^ gfMul p[3] q[k - 3]

/-- The product of two rotating matrices is rotating. -/
theorem mixWith_mixWith (p q : Vector Byte 4) (s : Block) : mixWith p (mixWith q s) = mixWith (mixProduct p q) s := by
  apply block_ext_cell
  intro r c
  simp only [cell_mixWith, mixProduct, tab_getElem, gfMul_xor_left, gfMul_xor_right, gfMul_assoc, add_assoc, add_zero,
    Fin.reduceFinMk, Fin.reduceSub, Fin.reduceAdd]
  ac_rfl

/-- The identity matrix changes nothing. -/
theorem mixWith_identity (s : Block) : mixWith #v[1, 0, 0, 0] s = s := by
  apply block_ext_cell
  intro r c
  rw [cell_mixWith]
  change gfMul 1 _ ^^^ gfMul 0 _ ^^^ gfMul 0 _ ^^^ gfMul 0 _ = _
  rw [one_gfMul, zero_gfMul, zero_gfMul, zero_gfMul]
  simp

/-- The two matrices are inverse to each other (R82). -/
theorem invMixColumns_mixColumns (b : Block) : invMixColumns (mixColumns b) = b := by
  have hproduct : mixProduct #v[14, 11, 13, 9] #v[2, 3, 1, 1] = #v[1, 0, 0, 0] := by decide
  rw [invMixColumns, mixColumns, mixWith_mixWith, hproduct, mixWith_identity]

/-- A matrix whose rows add up to 1 leaves a column of four equal bytes as it is. -/
theorem cell_mixWith_of_constant {top : Vector Byte 4} (htop : top[0] ^^^ top[1] ^^^ top[2] ^^^ top[3] = 1) {s : Block}
    {c : Fin 4} {a : Byte} (ha : ∀ r, cell s r c = a) (r : Fin 4) : cell (mixWith top s) r c = a := by
  simp only [cell_mixWith, ha, ← gfMul_xor_left, htop, one_gfMul]

/-- The four cells of a column, gathered. -/
theorem column_constant {s : Block} {c : Fin 4} {a : Byte} (h0 : cell s 0 c = a) (h1 : cell s 1 c = a) (h2 : cell s 2 c = a)
    (h3 : cell s 3 c = a) : ∀ r, cell s r c = a
  | 0 => h0
  | 1 => h1
  | 2 => h2
  | 3 => h3

/-! ### The laws together (R84) -/

/-- Settles O37: the boxes undo each other by I4; the other laws hold of every block, cell by cell. -/
theorem roundPrimitiveLaws : Obligations.RoundPrimitiveLaws := by
  intro s hinv hs b round _
  obtain ⟨-, hboxes⟩ := hinv.boxes hs
  exact ⟨invSubBytes_subBytes hboxes b, invShiftRows_shiftRows b, invMixColumns_mixColumns b,
    addRoundKey_addRoundKey s.ctx.w round b, subBytes_shiftRows s.tbl b, invSubBytes_invShiftRows s.tbl b⟩

end Sys2Proof.Machine
end

section
/-! PROOFS. The commands of the round engine (42_round_engine.md): LOAD_STATE (R76), the substitutions (R77, R78), the rotations
(R79, R80), the column products (R81, R82) and ADD_ROUND_KEY (R83). -/

namespace Sys2Proof.Machine

/-! ### LOAD_STATE (R76) -/

/-- Settles O29: LOAD_STATE checks nothing, and the columns of the block it leaves are the words. -/
theorem loadStateCopiesTheBlock : Obligations.LoadStateCopiesTheBlock :=
  ⟨encodesAlone_of_row fun _ _ => rfl,
    fun s => ⟨blockOfWords s.ldin, rfl, fun k j => cell_blockOfWords s.ldin j k, columnWord_blockOfWords s.ldin⟩, by decide⟩

/-! ### SUB_BYTES and INV_SUB_BYTES (R77, R78) -/

/-- Settles O30: the tables' check, then the box on each byte; no entry of the printed box is its own index. -/
theorem subBytesReplacesEachByte : Obligations.SubBytesReplacesEachByte := by
  refine ⟨encodesAlone_of_row fun _ _ => rfl, fun s => ⟨needTables_false s _, fun hs => ?ready⟩, printedSbox_ne_self,
    by decide +kernel, by decide +kernel⟩
  case ready => exact ⟨subBytes s.tbl s.st, needTables_true s _ hs, getElem_subBytes s.tbl s.st⟩

/-- Settles O31: the tables' check, then the inverse box on each byte, which undoes the box by I4. -/
theorem invSubBytesReplacesEachByte : Obligations.InvSubBytesReplacesEachByte := by
  refine ⟨encodesAlone_of_row fun _ _ => rfl, fun s => ⟨needTables_false s _, fun hs => ?ready⟩, fun s hinv hs => ?inverse,
    by decide +kernel, by decide +kernel⟩
  case ready => exact ⟨invSubBytes s.tbl s.st, needTables_true s _ hs, getElem_invSubBytes s.tbl s.st⟩
  case inverse =>
    obtain ⟨-, hboxes⟩ := hinv.boxes hs
    exact invSubBytes_subBytes hboxes s.st

/-! ### SHIFT_ROWS and INV_SHIFT_ROWS (R79, R80) -/

/-- Settles O32: SHIFT_ROWS checks nothing; the column it reads goes round modulo 4. -/
theorem shiftRowsRotatesLeft : Obligations.ShiftRowsRotatesLeft :=
  ⟨encodesAlone_of_row fun _ _ => rfl,
    fun s => ⟨shiftRows s.st, rfl, rfl, cell_shiftRows s.st, fun c => by rw [cell_shiftRows, add_zero],
      shiftRows_four_times s.st⟩,
    by decide⟩

/-- The column `r` places to the left, going round, by number. -/
theorem sub_eq_mod : ∀ r c : Fin 4, c - r = ⟨(c.val + 4 - r.val) % 4, Nat.mod_lt _ (by decide)⟩ := by decide

/-- Settles O33: INV_SHIFT_ROWS checks nothing; the column it reads goes round modulo 4. -/
theorem invShiftRowsRotatesRight : Obligations.InvShiftRowsRotatesRight :=
  ⟨encodesAlone_of_row fun _ _ => rfl,
    fun s => ⟨invShiftRows s.st, rfl, rfl, fun r c => sub_eq_mod r c ▸ cell_invShiftRows s.st r c,
      invShiftRows_shiftRows s.st, fun t => (invSubBytes_invShiftRows t s.st).symm⟩,
    by decide⟩

/-! ### MIX_COLUMNS and INV_MIX_COLUMNS (R81, R82) -/

/-- Settles O34: MIX_COLUMNS checks nothing; each row of its matrix adds up to 1. -/
theorem mixColumnsMultipliesEachColumn : Obligations.MixColumnsMultipliesEachColumn := by
  refine ⟨encodesAlone_of_row fun _ _ => rfl, fun s => ⟨mixColumns s.st, rfl, ?_⟩, by decide, by decide⟩
  rintro c a0 a1 a2 a3 rfl rfl rfl rfl
  obtain ⟨row0, row1, row2, row3⟩ := column_mixWith 2 3 1 1 s.st c
  simp only [one_gfMul] at row0 row1 row2 row3
  exact ⟨row0, row1, row2, row3, fun h1 h2 h3 => cell_mixWith_of_constant (by decide) (column_constant rfl h1 h2 h3)⟩

/-- Settles O35: INV_MIX_COLUMNS checks nothing; its matrix is the inverse of the other, and each row adds up to 1. -/
theorem invMixColumnsMultipliesEachColumn : Obligations.InvMixColumnsMultipliesEachColumn := by
  refine ⟨encodesAlone_of_row fun _ _ => rfl, fun s => ⟨invMixColumns s.st, rfl, ?_, invMixColumns_mixColumns s.st⟩,
    by decide⟩
  rintro c a0 a1 a2 a3 rfl rfl rfl rfl
  obtain ⟨row0, row1, row2, row3⟩ := column_mixWith 14 11 13 9 s.st c
  exact ⟨row0, row1, row2, row3, fun h1 h2 h3 => cell_mixWith_of_constant (by decide) (column_constant rfl h1 h2 h3)⟩

/-! ### ADD_ROUND_KEY (R83) -/

/-- With a context and a round up to NR, ADD_ROUND_KEY adds the round key to ST. -/
theorem exec_addRoundKey_of_le {s : State} {round : Byte} (hs : s.keyValid = true) (hround : round.toNat ≤ s.ctx.nr.toNat) :
    exec (.addRoundKey round) s = .next (State.complete none { s with st := addRoundKey s.ctx.w round.toNat s.st }) := by
  simp only [exec, execAddRoundKey, needContext_true s _ hs, roundInRange, hround, decide_true, needArgument_true, finish_eq]

/-- With a context and a round above NR, it fails. -/
theorem exec_addRoundKey_of_gt {s : State} {round : Byte} (hs : s.keyValid = true) (hround : round.toNat > s.ctx.nr.toNat) :
    exec (.addRoundKey round) s = .next (s.complete (some .badArgument)) := by
  simp only [exec, execAddRoundKey, needContext_true s _ hs, roundInRange, Nat.not_le.2 hround, decide_false,
    needArgument_false]

/-- Four consecutive words of the store, gathered into a round key. -/
theorem scheduleWords_eq {w : Vector Word 60} {i : Nat} (hi : i + 3 < 60) {k0 k1 k2 k3 : Word} (h0 : w[i] = k0)
    (h1 : w[i + 1] = k1) (h2 : w[i + 2] = k2) (h3 : w[i + 3] = k3) :
    ∀ c : Fin 4, scheduleWord w (i + c.val) = #v[k0, k1, k2, k3][c]
  | 0 => (scheduleWord_of_lt w i (by omega)).trans h0
  | 1 => (scheduleWord_of_lt w (i + 1) (by omega)).trans h1
  | 2 => (scheduleWord_of_lt w (i + 2) (by omega)).trans h2
  | 3 => (scheduleWord_of_lt w (i + 3) (by omega)).trans h3

/-- Settles O36: the checks in their order, and the words of the round key read from the schedule. -/
theorem addRoundKeyAddsTheRoundKey : Obligations.AddRoundKeyAddsTheRoundKey := by
  refine ⟨encodesWithA_of_row fun _ _ => rfl, fun s round => ⟨needContext_false s _, exec_addRoundKey_of_gt,
    fun hs hround => ?added⟩, fun t key nk w b r c hnk hw => ?rawKey, fun w h0 h1 h2 h3 => ?round0,
    fun w h0 h1 h2 h3 => ?round10⟩
  case added =>
    exact ⟨_, exec_addRoundKey_of_le hs hround, cell_addRoundKey s.ctx.w round.toNat s.st,
      addRoundKey_addRoundKey s.ctx.w round.toNat s.st⟩
  case rawKey =>
    obtain ⟨hkey, -, -⟩ := hw
    rw [cell_addRoundKey, Nat.mul_zero, Nat.zero_add, hkey ⟨c.val, by omega⟩ (Nat.lt_of_lt_of_le c.isLt hnk)]
    rfl
  case round0 =>
    rw [addRoundKey_of_words (scheduleWords_eq (i := 0) (by decide) h0 h1 h2 h3)]
    decide
  case round10 =>
    rw [addRoundKey_of_words (scheduleWords_eq (i := 40) (by decide) h0 h1 h2 h3)]
    decide

end Sys2Proof.Machine
end

section
/-! PROOFS. The core step (43_cipher_context.md): it performs the latched command and always completes it (R85), NOP only
completes (R93), and what a command leaves depends on the snapshot and the stores alone (R92). -/

namespace Sys2Proof.Machine

/-! ### Completion (R85, R108) -/

/-- Settles O5: either end of a command completes it, and writes none of the host's registers and none of the latches. -/
theorem everyCommandCompletesWithinItsFrame : Obligations.EveryCommandCompletesWithinItsFrame := by
  intro i s
  have hend := exec_end i s
  generalize exec i s = o at hend
  cases hend with
  | failed | done => exact ⟨_, rfl, rfl, rfl, rfl, rfl, rfl, rfl, rfl, rfl, rfl, rfl, rfl, rfl, rfl⟩

/-- The core's turn while busy is the decoded command. -/
theorem coreTurn_of_decode {s : State} {i : Instr} (hbusy : s.phase = .busy) (hi : decode s.lcmd = .ok i) :
    coreTurn s = exec i s :=
  (coreTurn_busy s hbusy).trans (perform_of_decode hi)

/-- Settles O4: the core's turn while busy is the core step, and the command that it performs completes. -/
theorem coreStepPerformsAndCompletes : Obligations.CoreStepPerformsAndCompletes := by
  intro s
  refine ⟨coreTurn_idle s, fun hbusy => ⟨fun i hi => ?decoded, fun e he => ?illegal⟩⟩
  case decoded =>
    obtain ⟨t, ht, hphase, hdone, -⟩ := everyCommandCompletesWithinItsFrame i s
    exact ⟨coreTurn_of_decode hbusy hi, t, ht, hphase, (not_busy_iff t).2 hphase, hdone⟩
  case illegal => exact (coreTurn_busy s hbusy).trans (perform_illegal ⟨e, he⟩)

/-! ### The turns of a step (R43; log entries 1, 2) -/

theorem step_of_core_next {s : State} {rest : List Turn} (h : s.agenda = .core :: rest) :
    step s = coreTurn { s with agenda := rest } := by
  simp only [step, h]

theorem step_of_host_next {s : State} {a : Access} {rest : List Turn} (h : s.agenda = .host a :: rest) :
    step s = hostTurn a { s with agenda := rest } := by
  simp only [step, h]

theorem step_of_no_turn {s : State} (h : s.agenda = []) : step s = coreTurn s := by
  simp only [step, h]

/-- Settles O2: the step is the next turn's, and the core's turn goes by PHASE. -/
theorem stepRunsTheDecodedCommand : Obligations.StepRunsTheDecodedCommand := by
  intro s rest
  refine ⟨fun i hbusy hi _ => ⟨fun hcore => ?core, fun hnone => ?none⟩, fun a => step_of_host_next,
    fun hidle hcore => ?idleCore, fun hidle hnone => ?idleNone⟩
  case core => exact (step_of_core_next hcore).trans (coreTurn_of_decode (s := { s with agenda := rest }) hbusy hi)
  case none => exact (step_of_no_turn hnone).trans (coreTurn_of_decode hbusy hi)
  case idleCore => exact (step_of_core_next hcore).trans (coreTurn_idle { s with agenda := rest } hidle)
  case idleNone => exact (step_of_no_turn hnone).trans (coreTurn_idle s hidle)

/-! ### NOP (R93) -/

/-- Settles O42: a CMD write of zero while idle latches a word that decodes to NOP. -/
theorem nopOnlyCompletes : Obligations.NopOnlyCompletes := by
  refine ⟨encodesAlone_of_row fun _ _ => rfl, fun _ => rfl, fun s hidle => ?issued⟩
  case issued =>
    have hnop : decode (s.accept 0).lcmd = .ok .nop := by
      rw [accept_lcmd]
      decide
    rw [andThen_next, hostWrite_cmd, issue_idle _ s hidle, coreTurn_of_decode rfl hnop]
    rfl

/-! ### The snapshot (R92) -/

/-- `s` with other DONE, ERR and PHASE: the registers that a completion writes (R85). -/
def State.withCompletion (done : Bool) (err : Option CmdError) (phase : Phase) (s : State) : State :=
  { s with done := done, err := err, phase := phase }

/-- No command reads DONE, ERR or PHASE, and every command writes all three. -/
theorem exec_withCompletion (i : Instr) (d : Bool) (e : Option CmdError) (p : Phase) (s : State) :
    exec i (s.withCompletion d e p) = exec i s := by
  cases i <;> rfl

/-- Neither does the core step. -/
theorem perform_withCompletion (d : Bool) (e : Option CmdError) (p : Phase) (s : State) :
    perform (s.withCompletion d e p) = perform s := by
  unfold perform
  rw [show (s.withCompletion d e p).lcmd = s.lcmd from rfl]
  split
  · exact exec_withCompletion ..
  · rfl

/-- The core step reads neither RC nor RCON (R30). -/
theorem perform_rounds_unread (s : State) (r : Byte × Byte) : OutRel AlikeButRounds (perform s) (perform (s.withRounds r)) :=
  .perform rfl (fun _ => ⟨r, rfl⟩) fun i => exec_rounds_unread i s r

/-- A state with the stores and the latches of another is that other one but for what a completion writes, the host's side, and
RC and RCON. -/
theorem eq_of_snapshot_eq {s s' : State} (hlcmd : s'.lcmd = s.lcmd) (hlkey : s'.lkey = s.lkey) (hldin : s'.ldin = s.ldin)
    (htbl : s'.tbl = s.tbl) (hvalid : s'.tblValid = s.tblValid) (hctx : s'.ctx = s.ctx) (hst : s'.st = s.st)
    (hrdata : s'.rdata = s.rdata) :
    s' = ((s.withCompletion s'.done s'.err s'.phase).withHostSide s'.cmd s'.key s'.din s'.ovr s'.aesBase s'.agenda s'.reply
      s'.draws).withRounds (s'.rc, s'.rcon) := by
  simp only [State.withRounds, State.withHostSide, State.withCompletion, ← hlcmd, ← hlkey, ← hldin, ← htbl, ← hvalid, ← hctx,
    ← hst, ← hrdata]

/-- Settles O44: a core step reads none of the registers in which the two states may differ. -/
theorem resultsDependOnlyOnTheSnapshot : Obligations.ResultsDependOnlyOnTheSnapshot := by
  intro s s' hlcmd hlkey hldin htbl hvalid hctx hst hrdata
  obtain ⟨t, ht, -⟩ := (perform_end s).keepsHostSide
  have halike := perform_rounds_unread ((s.withCompletion s'.done s'.err s'.phase).withHostSide s'.cmd s'.key s'.din s'.ovr
    s'.aesBase s'.agenda s'.reply s'.draws) (s'.rc, s'.rcon)
  rw [← eq_of_snapshot_eq hlcmd hlkey hldin htbl hvalid hctx hst hrdata, perform_withHostSide, perform_withCompletion, ht,
    andThen_next] at halike
  generalize perform s' = o at halike ⊢
  obtain ⟨r, rfl⟩ := halike
  exact ⟨t, _, ht, rfl, rfl, rfl, rfl, rfl, rfl, rfl⟩

end Sys2Proof.Machine
end

section
/-! PROOFS. The Encrypt and Decrypt sequences as functions of a block (43_cipher_context.md): as folds over the rounds (R87, R88),
and inverse to each other (R91). -/

namespace Sys2Proof.Machine

/-! ### The middle rounds as folds (R87, R88) -/

/-- The middle rounds of encryption, in ascending order. -/
theorem encRounds_eq_foldl (t : Tables) (w : Vector Word 60) (n rc : Nat) (b : Block) :
    encRounds t w n rc b = (List.range n).foldl (fun b k => encRound t w (k + rc) b) b := by
  induction n generalizing rc b with
  | zero => rfl
  | succ n ih =>
    rw [encRounds, ih, List.range_succ_eq_map, List.foldl_cons, List.foldl_map]
    simp only [Nat.zero_add, Nat.succ_add_eq_add_succ]

/-- The middle rounds of decryption, in descending order. -/
theorem decRounds_eq_foldl (t : Tables) (w : Vector Word 60) (n : Nat) (b : Block) :
    decRounds t w n b = (List.range n).reverse.foldl (fun b k => decRound t w (k + 1) b) b := by
  induction n generalizing b with
  | zero => rfl
  | succ n ih => rw [decRounds, ih, List.range_succ, List.reverse_concat, List.foldl_cons]

/-! ### Decryption undoes encryption (R91) -/

/-- The last middle round of encryption, on top of those before it. -/
theorem encRounds_succ (t : Tables) (w : Vector Word 60) (n : Nat) (b : Block) :
    encRounds t w (n + 1) 1 b = encRound t w (n + 1) (encRounds t w n 1 b) := by
  simp only [encRounds_eq_foldl, List.range_succ, List.foldl_concat]

section
variable {t : Tables} (hboxes : ∀ x : Byte, tableGet t.isbox (tableGet t.sbox x) = x) (w : Vector Word 60)
include hboxes

/-- The substitution and the rotation of rows are undone by their inverses. -/
theorem invSubBytes_invShiftRows_shiftRows_subBytes (b : Block) :
    invSubBytes t (invShiftRows (shiftRows (subBytes t b))) = b := by
  rw [invShiftRows_shiftRows, invSubBytes_subBytes hboxes]

/-- A middle round of decryption turns what the next round of encryption begins with back into what its own round began with:
it undoes the substitution of the one and the rest of the other. -/
theorem decRound_encRound (rc : Nat) (b : Block) :
    decRound t w rc (shiftRows (subBytes t (encRound t w rc b))) = shiftRows (subBytes t b) := by
  rw [decRound, invSubBytes_invShiftRows_shiftRows_subBytes hboxes, encRound, addRoundKey_addRoundKey, invMixColumns_mixColumns]

/-- So do all of them, the last one first. -/
theorem decRounds_encRounds (n : Nat) (b : Block) :
    decRounds t w n (shiftRows (subBytes t (encRounds t w n 1 b))) = shiftRows (subBytes t b) := by
  induction n with
  | zero => rfl
  | succ n ih => rw [encRounds_succ, decRounds, decRound_encRound hboxes, ih]

/-- The Decrypt sequence undoes the Encrypt sequence. -/
theorem decipher_encipher (nr : Nat) (b : Block) : decipher t w nr (encipher t w nr b) = b := by
  rw [decipher, encipher, addRoundKey_addRoundKey, decRounds_encRounds hboxes, invSubBytes_invShiftRows_shiftRows_subBytes hboxes,
    addRoundKey_addRoundKey]

end

/-- There are finitely many blocks. -/
theorem finite_block : Finite Block := by
  have hbyte : Finite Byte := .of_injective BitVec.toFin fun _ _ => BitVec.eq_of_toFin_eq
  refine .of_injective (fun (b : Block) (i : Fin 16) => b[i]) fun a b h => Vector.ext fun i hi => ?_
  exact congrFun h ⟨i, hi⟩

/-- The Encrypt sequence undoes the Decrypt sequence: on finitely many blocks, what undoes a map from one side undoes it from
the other. -/
theorem encipher_decipher {t : Tables} (hboxes : ∀ x : Byte, tableGet t.isbox (tableGet t.sbox x) = x) (w : Vector Word 60)
    (nr : Nat) (b : Block) : encipher t w nr (decipher t w nr b) = b := by
  have hleft : Function.LeftInverse (decipher t w nr) (encipher t w nr) := decipher_encipher hboxes w nr
  have := finite_block
  exact hleft.rightInverse_of_surjective (Finite.surjective_of_injective hleft.injective) b

/-! ### The known answer (95_test_vectors.md) -/

/-- The schedule of the example key. -/
def exampleSchedule : Vector Word 60 := (expand printedTables exampleKey 4).1

theorem encipher_example :
    encipher printedTables exampleSchedule 10 (blockOfWords #v[0x00112233, 0x44556677, 0x8899AABB, 0xCCDDEEFF]) =
      blockOfHex 0x69C4E0D86A7B0430D8CDB78070B4C55A := by
  decide +kernel

/-- The vector back: the ciphertext is what the Encrypt sequence gives, and the Decrypt sequence undoes it. -/
theorem decipher_example :
    decipher printedTables exampleSchedule 10 (blockOfWords #v[0x69C4E0D8, 0x6A7B0430, 0xD8CDB780, 0x70B4C55A]) =
      blockOfHex 0x00112233445566778899AABBCCDDEEFF := by
  have hcipher : blockOfWords #v[0x69C4E0D8, 0x6A7B0430, 0xD8CDB780, 0x70B4C55A] =
      blockOfHex 0x69C4E0D86A7B0430D8CDB78070B4C55A := by decide
  rw [hcipher, ← encipher_example, decipher_encipher printedIsbox_printedSbox]
  decide

end Sys2Proof.Machine
end

section
/-! PROOFS. The block commands (43_cipher_context.md): ENC_BLOCK (R87), DEC_BLOCK (R88), that each undoes the other (R91) and their
step sequences (R90). -/

namespace Sys2Proof.Machine

/-! ### ENC_BLOCK and DEC_BLOCK (R87, R88) -/

/-- `s` with the block of the DIN snapshot enciphered into ST, and RC as the last round leaves it. -/
def State.enciphered (s : State) : State :=
  { s with st := encipher s.tbl s.ctx.w s.ctx.nr.toNat (blockOfWords s.ldin), rc := s.ctx.nr.setWidth 8 }

/-- `s` with the block of the DIN snapshot deciphered into ST, and RC as the last round leaves it. -/
def State.deciphered (s : State) : State :=
  { s with st := decipher s.tbl s.ctx.w s.ctx.nr.toNat (blockOfWords s.ldin), rc := 0 }

theorem enciphered_st (s : State) :
    s.enciphered.st = encipher s.tbl s.ctx.w s.ctx.nr.toNat (blockOfWords s.ldin) := rfl

theorem deciphered_st (s : State) :
    s.deciphered.st = decipher s.tbl s.ctx.w s.ctx.nr.toNat (blockOfWords s.ldin) := rfl

/-- With tables and a context, ENC_BLOCK enciphers. -/
theorem exec_encBlock_of_context {s : State} (hs : s.tblValid = true) (hk : s.keyValid = true) :
    exec .encBlock s = .next (s.enciphered.complete none) := by
  simp only [exec, execEncBlock, needTables_true s _ hs, needContext_true s _ hk, finish_eq, State.enciphered]

/-- With tables and a context, DEC_BLOCK deciphers. -/
theorem exec_decBlock_of_context {s : State} (hs : s.tblValid = true) (hk : s.keyValid = true) :
    exec .decBlock s = .next (s.deciphered.complete none) := by
  simp only [exec, execDecBlock, needTables_true s _ hs, needContext_true s _ hk, finish_eq, State.deciphered]

/-- With tables but no context, DEC_BLOCK fails. -/
theorem exec_decBlock_of_noContext {s : State} (hs : s.tblValid = true) (hk : s.keyValid = false) :
    exec .decBlock s = .next (s.complete (some .noContext)) := by
  simp only [exec, execDecBlock, needTables_true s _ hs, needContext_false s _ hk]

@[simp] theorem withSchedule_tbl (nk : Nat) (s : State) : (s.withSchedule nk).tbl = s.tbl := rfl
@[simp] theorem withSchedule_tblValid (nk : Nat) (s : State) : (s.withSchedule nk).tblValid = s.tblValid := rfl
@[simp] theorem withSchedule_ldin (nk : Nat) (s : State) : (s.withSchedule nk).ldin = s.ldin := rfl

/-- A successful KEY_EXPAND leaves a context. -/
theorem keyValid_withSchedule (s : State) {nk : Nat} (hk : nk = 4 ∨ nk = 6 ∨ nk = 8) :
    ((s.withSchedule nk).complete none).keyValid = true := by
  rw [keyValid_iff_nk, complete_ctx, withSchedule_nk]
  obtain rfl | rfl | rfl := hk <;> decide

/-- What a KEY_EXPAND of the example key leaves in the context (R72). -/
theorem withSchedule_example {s : State} (htbl : s.tbl = printedTables) (h0 : s.lkey[0] = 0x00010203)
    (h1 : s.lkey[1] = 0x04050607) (h2 : s.lkey[2] = 0x08090A0B) (h3 : s.lkey[3] = 0x0C0D0E0F) :
    (s.withSchedule 4).ctx = { w := exampleSchedule, nk := 4, nr := 10 } := by
  rw [State.withSchedule, htbl, expand_eq_exampleKey printedTables h0 h1 h2 h3, exampleSchedule]
  rfl

/-- Settles O38: the checks in their order, the middle rounds as a fold, and the vector with the schedule of its key. -/
theorem encBlockRunsTheEncryptSequence : Obligations.EncBlockRunsTheEncryptSequence := by
  refine ⟨encodesAlone_of_row fun _ _ => rfl,
    fun s => ⟨needTables_false s _, exec_encBlock_of_noContext, fun hs hk => ?sequence⟩,
    fun s hs htbl h0 h1 h2 h3 hldin => ?vector⟩
  case sequence =>
    rintro _ _ _ _ rfl rfl rfl rfl
    rw [exec_encBlock_of_context hs hk, State.enciphered, encipher, encRounds_eq_foldl, BitVec.ofNat_toNat]
    rfl
  case vector =>
    refine ⟨_, _, exec_keyExpand_of_length hs (nk := 4) rfl (by simp),
      exec_encBlock_of_context (by rw [complete_tblValid, withSchedule_tblValid, hs]) (keyValid_withSchedule s (by simp)), ?_⟩
    rw [complete_st, enciphered_st, complete_ctx, withSchedule_example htbl h0 h1 h2 h3, complete_tbl, withSchedule_tbl,
      complete_ldin, withSchedule_ldin, htbl, hldin]
    exact encipher_example

/-- Settles O39: the checks in their order, the middle rounds as a fold, and the vector back. -/
theorem decBlockRunsTheDecryptSequence : Obligations.DecBlockRunsTheDecryptSequence := by
  refine ⟨encodesAlone_of_row fun _ _ => rfl,
    fun s => ⟨needTables_false s _, exec_decBlock_of_noContext, fun hs hk => ?sequence⟩,
    fun s hs htbl h0 h1 h2 h3 hldin => ?vector⟩
  case sequence =>
    rintro _ _ _ _ rfl rfl rfl rfl
    rw [exec_decBlock_of_context hs hk, State.deciphered, decipher, decRounds_eq_foldl]
    rfl
  case vector =>
    refine ⟨_, _, exec_keyExpand_of_length hs (nk := 4) rfl (by simp),
      exec_decBlock_of_context (by rw [complete_tblValid, withSchedule_tblValid, hs]) (keyValid_withSchedule s (by simp)), ?_⟩
    rw [complete_st, deciphered_st, complete_ctx, withSchedule_example htbl h0 h1 h2 h3, complete_tbl, withSchedule_tbl,
      complete_ldin, withSchedule_ldin, htbl, hldin]
    exact decipher_example

/-! ### Each undoes the other (R91) -/

/-- The block that the DOUT words of a state hold is its ST (R28). -/
theorem blockOfWords_doutWords (s : State) : blockOfWords (doutWords s) = s.st := blockOfWords_columnWords s.st

/-- With a block in ST, the DOUT words are the words that held it. -/
theorem doutWords_of_st {s : State} {v : Vector Word 4} (h : s.st = blockOfWords v) : doutWords s = v := by
  apply Vector.ext
  intro k hk
  rw [doutWords, tab_getElem, h, columnWord_blockOfWords]
  rfl

/-- Settles O41: the second command takes from DIN the block that the first left in ST, and its sequence undoes the other. -/
theorem decryptionInvertsEncryption : Obligations.DecryptionInvertsEncryption := by
  intro s hinv hk
  have hs : s.tblValid = true := hinv.tablesFirst hk
  obtain ⟨-, hboxes⟩ := hinv.boxes hs
  refine ⟨⟨_, _, exec_encBlock_of_context hs hk, exec_decBlock_of_context hs hk, ?decrypted⟩,
    ⟨_, _, exec_decBlock_of_context hs hk, exec_encBlock_of_context hs hk, ?encrypted⟩⟩
  case decrypted =>
    rw [and_iff_left_of_imp doutWords_of_st, complete_st, deciphered_st, blockOfWords_doutWords]
    exact decipher_encipher hboxes s.ctx.w s.ctx.nr.toNat (blockOfWords s.ldin)
  case encrypted =>
    rw [and_iff_left_of_imp doutWords_of_st, complete_st, enciphered_st, blockOfWords_doutWords]
    exact encipher_decipher hboxes s.ctx.w s.ctx.nr.toNat (blockOfWords s.ldin)

/-! ### The step sequences (R57, R90) -/

theorem runCommands_append (cmds cmds' : List Instr) (s : State) :
    runCommands (cmds ++ cmds') s = andThen (runCommands cmds s) (runCommands cmds') := by
  induction cmds generalizing s with
  | nil => rfl
  | cons i rest ih =>
    rw [List.cons_append, runCommands, runCommands]
    cases exec i s with
    | next t => exact ih t
    | fault | refused => rfl

/-- `s` after a command that succeeded and left the block `b` in ST. -/
def State.withBlock (b : Block) (s : State) : State := State.complete none { s with st := b }

/-- The commands succeed beside the stores and the latches of `s`, and apply `f` to ST. -/
def Computes (s : State) (cmds : List Instr) (f : Block → Block) : Prop :=
  ∀ b, runCommands cmds (s.withBlock b) = .next (s.withBlock (f b))

section
variable {s : State}

theorem Computes.nil : Computes s [] id := fun _ => rfl

theorem Computes.cons {i : Instr} {cmds : List Instr} {f g : Block → Block}
    (hi : ∀ b, exec i (s.withBlock b) = .next (s.withBlock (f b))) (h : Computes s cmds g) :
    Computes s (i :: cmds) (g ∘ f) := by
  intro b
  rw [runCommands, hi, andThen_next, h]
  rfl

theorem Computes.append {cmds cmds' : List Instr} {f g : Block → Block} (h : Computes s cmds f) (h' : Computes s cmds' g) :
    Computes s (cmds ++ cmds') (g ∘ f) := by
  intro b
  rw [runCommands_append, h, andThen_next, h']
  rfl

/-- A round after another folds what the rounds compute. -/
theorem Computes.flatMap {ks : List Nat} {cmds : Nat → List Instr} {f : Block → Nat → Block}
    (h : ∀ k ∈ ks, Computes s (cmds k) (f · k)) : Computes s (ks.flatMap cmds) (ks.foldl f ·) := by
  induction ks with
  | nil => exact .nil
  | cons k ks ih =>
    obtain ⟨hk, hks⟩ := List.forall_mem_cons.mp h
    exact hk.append (ih hks)

theorem exec_shiftRows_withBlock (b : Block) : exec .shiftRows (s.withBlock b) = .next (s.withBlock (shiftRows b)) := rfl

theorem exec_invShiftRows_withBlock (b : Block) :
    exec .invShiftRows (s.withBlock b) = .next (s.withBlock (invShiftRows b)) := rfl

theorem exec_mixColumns_withBlock (b : Block) : exec .mixColumns (s.withBlock b) = .next (s.withBlock (mixColumns b)) := rfl

theorem exec_invMixColumns_withBlock (b : Block) :
    exec .invMixColumns (s.withBlock b) = .next (s.withBlock (invMixColumns b)) := rfl

theorem exec_subBytes_withBlock (hs : s.tblValid = true) (b : Block) :
    exec .subBytes (s.withBlock b) = .next (s.withBlock (subBytes s.tbl b)) :=
  needTables_true (s.withBlock b) _ hs

theorem exec_invSubBytes_withBlock (hs : s.tblValid = true) (b : Block) :
    exec .invSubBytes (s.withBlock b) = .next (s.withBlock (invSubBytes s.tbl b)) :=
  needTables_true (s.withBlock b) _ hs

theorem exec_addRoundKey_withBlock (hk : s.keyValid = true) {round : Nat} (hround : round ≤ s.ctx.nr.toNat) (b : Block) :
    exec (.addRoundKey (BitVec.ofNat 8 round)) (s.withBlock b) = .next (s.withBlock (addRoundKey s.ctx.w round b)) := by
  have hbyte : (BitVec.ofNat 8 round).toNat = round := by
    rw [BitVec.toNat_ofNat]
    omega
  rw [exec_addRoundKey_of_le (s := s.withBlock b) hk (hbyte.trans_le hround), hbyte]
  rfl

variable (hs : s.tblValid = true) (hk : s.keyValid = true)
include hs hk

/-- `EROUND` is a middle round of encryption. -/
theorem computes_eRound {rc : Nat} (hrc : rc ≤ s.ctx.nr.toNat) :
    Computes s (eRound (BitVec.ofNat 8 rc)) (encRound s.tbl s.ctx.w rc) :=
  (Computes.cons (exec_subBytes_withBlock hs) <| .cons exec_shiftRows_withBlock <| .cons exec_mixColumns_withBlock <|
    .cons (exec_addRoundKey_withBlock hk hrc) .nil :)

/-- `DROUND` is a middle round of decryption. -/
theorem computes_dRound {rc : Nat} (hrc : rc ≤ s.ctx.nr.toNat) :
    Computes s (dRound (BitVec.ofNat 8 rc)) (decRound s.tbl s.ctx.w rc) :=
  (Computes.cons exec_invShiftRows_withBlock <| .cons (exec_invSubBytes_withBlock hs) <|
    .cons (exec_addRoundKey_withBlock hk hrc) <| .cons exec_invMixColumns_withBlock .nil :)

/-- LOAD_STATE loads the block, and each later part of the sequence of R90 computes its part of the Encrypt sequence. -/
theorem runCommands_encSteps :
    runCommands (encSteps s.ctx.nr.toNat) s =
      .next (s.withBlock (encipher s.tbl s.ctx.w s.ctx.nr.toNat (blockOfWords s.ldin))) := by
  have hmiddle := Computes.flatMap (s := s) (ks := List.range (s.ctx.nr.toNat - 1))
    (f := fun b k => encRound s.tbl s.ctx.w (k + 1) b) fun k hmem =>
      computes_eRound hs hk (by rw [List.mem_range] at hmem; omega)
  have hfinal := Computes.cons (exec_subBytes_withBlock hs) <| .cons exec_shiftRows_withBlock <|
    .cons (exec_addRoundKey_withBlock hk le_rfl) .nil
  have h := Computes.cons (exec_addRoundKey_withBlock hk (Nat.zero_le _)) (hmiddle.append hfinal)
  rw [encipher, encRounds_eq_foldl]
  exact h (blockOfWords s.ldin)

/-- LOAD_STATE loads the block, and each later part of the sequence of R90 computes its part of the Decrypt sequence. -/
theorem runCommands_decSteps :
    runCommands (decSteps s.ctx.nr.toNat) s =
      .next (s.withBlock (decipher s.tbl s.ctx.w s.ctx.nr.toNat (blockOfWords s.ldin))) := by
  have hmiddle := Computes.flatMap (s := s) (ks := (List.range (s.ctx.nr.toNat - 1)).reverse)
    (f := fun b k => decRound s.tbl s.ctx.w (k + 1) b) fun k hmem =>
      computes_dRound hs hk (by rw [List.mem_reverse, List.mem_range] at hmem; omega)
  have hfinal := Computes.cons exec_invShiftRows_withBlock <| .cons (exec_invSubBytes_withBlock hs) <|
    .cons (exec_addRoundKey_withBlock hk (Nat.zero_le _)) .nil
  have h := Computes.cons (exec_addRoundKey_withBlock hk le_rfl) (hmiddle.append hfinal)
  rw [decipher, decRounds_eq_foldl]
  exact h (blockOfWords s.ldin)

end

/-- Settles O40: command and sequence leave the same block in ST, and differ in RC only. -/
theorem blockCommandsEqualTheirStepSequences : Obligations.BlockCommandsEqualTheirStepSequences := fun _ hs hk =>
  ⟨⟨_, exec_encBlock_of_context hs hk, runCommands_encSteps hs hk, rfl⟩,
    ⟨_, exec_decBlock_of_context hs hk, runCommands_decSteps hs hk, rfl⟩⟩

end Sys2Proof.Machine
end

section
/-! PROOFS. Exceptions (60_exceptions.md): what a failing command leaves (R104), which error a command reports (R103), and how
long ERR, DONE and OVR stay (R105, R106). -/

namespace Sys2Proof.Machine

/-! ### A failing command (R104) -/

/-- An end of a command that reports an error is one that only completes. -/
theorem CommandEnd.eq_complete {s t : State} {o : Out} {e : CmdError} (h : CommandEnd s o) (ho : o = .next t)
    (herr : t.err = some e) : t = s.complete (some e) := by
  cases h <;> obtain rfl := Host.Outcome.next.inj ho
  case failed e' => exact congrArg s.complete herr
  case done => exact nomatch herr

/-- Settles O10: of the two ends of a core step, only the failed one reports an error. -/
theorem failingCommandWritesOnlyStatus : Obligations.FailingCommandWritesOnlyStatus :=
  fun s _ _ hp herr => (perform_end s).eq_complete hp herr

/-! ### Which error a command reports (R101, R103) -/

/-- The error of an operand that a command cannot use, with a context of `nr` rounds (R54, R101). -/
def argumentError (nr : Nat) : Instr → Option CmdError
  | .keyExpand len => if len ≠ 16 ∧ len ≠ 24 ∧ len ≠ 32 then some .invalidKeyLength else none
  | .addRoundKey round => if round.toNat > nr then some .badArgument else none
  | .ksRead index => if index.toNat ≥ 4 * (nr + 1) then some .badArgument else none
  | .tblRead sel _ => if sel.toNat > 3 then some .badArgument else none
  | _ => none

/-- The first error that applies to a command, in the order of R103. -/
def firstError (i : Instr) (s : State) : Option CmdError :=
  if i.readsTables && !s.tblValid then some .tablesNotReady
  else if i.readsContext && !s.keyValid then some .noContext
  else argumentError s.ctx.nr.toNat i

theorem firstError_eq (i : Instr) (s : State) :
    firstError i s =
      if i.readsTables = true ∧ s.tblValid = false then some .tablesNotReady
      else if i.readsContext = true ∧ s.keyValid = false then some .noContext
      else argumentError s.ctx.nr.toNat i := by
  simp only [firstError, Bool.and_eq_true, Bool.not_eq_true']

/-- Completion with the error cause `e`, or with none. -/
def Reports (e : Option CmdError) (o : Out) : Prop := ∃ t, o = .next t ∧ t.err = e

theorem Reports.complete (e : Option CmdError) (s : State) : Reports e (.next (s.complete e)) := ⟨_, rfl, rfl⟩

theorem Reports.needTables {e : Option CmdError} {s : State} {go : Out} (h : Reports e go) :
    Reports (if !s.tblValid then some .tablesNotReady else e) (Machine.needTables s go) := by
  obtain ⟨hs, ho⟩ | ⟨hs, ho⟩ := needTables_cases s go <;> rw [ho, hs]
  exacts [h, .complete _ s]

theorem Reports.needContext {e : Option CmdError} {s : State} {go : Out} (h : Reports e go) :
    Reports (if !s.keyValid then some .noContext else e) (Machine.needContext s go) := by
  obtain ⟨hs, ho⟩ | ⟨hs, ho⟩ := needContext_cases s go <;> rw [ho, hs]
  exacts [h, .complete _ s]

theorem Reports.needArgument {outOfRange : Prop} [Decidable outOfRange] {ok : Bool} {s : State} {go : Out}
    (hok : ok = true ↔ ¬ outOfRange) (h : Reports none go) :
    Reports (if outOfRange then some .badArgument else none) (Machine.needArgument ok s go) := by
  by_cases hout : outOfRange
  · rw [if_pos hout, Bool.eq_false_iff.2 fun h => hok.1 h hout, needArgument_false]
    exact .complete _ s
  · rw [if_neg hout, hok.2 hout, needArgument_true]
    exact h

/-- A selector up to 3 names a table (R67). -/
theorem selectedTable_eq_some {sel : Byte} (h : ¬ sel.toNat > 3) (t : Tables) : ∃ table, selectedTable sel t = some table := by
  obtain rfl | rfl | rfl | rfl : sel = 0 ∨ sel = 1 ∨ sel = 2 ∨ sel = 3 := by bv_omega
  all_goals exact ⟨_, rfl⟩

/-- Every command makes its checks in the order of R103. -/
theorem exec_reports (i : Instr) (s : State) : Reports (firstError i s) (exec i s) := by
  cases i with
  | nop | release | loadState | shiftRows | invShiftRows | mixColumns | invMixColumns | gfMul => exact .complete none _
  | tblInit =>
    simp only [exec, execTblInit]
    split <;> exact .complete none _
  | subBytes | invSubBytes => exact .needTables (.complete none _)
  | encBlock | decBlock => exact .needTables (.needContext (.complete none _))
  | addRoundKey round => exact .needContext (.needArgument (by simp [roundInRange]) (.complete none _))
  | ksRead index => exact .needContext (.needArgument (by simp [indexInRange]) (.complete none _))
  | keyExpand len =>
    refine .needTables (e := argumentError s.ctx.nr.toNat (.keyExpand len)) ?_
    obtain ⟨rfl, e⟩ | ⟨rfl, e⟩ | ⟨rfl, e⟩ | ⟨h16, h24, h32, e⟩ := keyWords_cases len <;> rw [e]
    case inr.inr.inr =>
      rw [argumentError, if_pos ⟨h16, h24, h32⟩]
      exact .complete _ s
    all_goals exact .complete none _
  | tblRead sel index =>
    refine .needTables (e := argumentError s.ctx.nr.toNat (.tblRead sel index)) ?_
    by_cases hsel : sel.toNat > 3
    · rw [selectedTable_eq_none hsel, argumentError, if_pos hsel]
      exact .complete _ s
    · obtain ⟨table, htable⟩ := selectedTable_eq_some hsel s.tbl
      rw [htable, argumentError, if_neg hsel]
      exact .complete none _

/-- A command's operand has one error at most: an invalid length, or a value out of range. -/
theorem argumentError_spec (nr : Nat) (i : Instr) :
    ¬ (i.lengthInvalid ∧ i.operandOutOfRange nr) ∧
    (i.lengthInvalid → argumentError nr i = some .invalidKeyLength) ∧
    (i.operandOutOfRange nr → argumentError nr i = some .badArgument) ∧
    (¬ i.lengthInvalid → ¬ i.operandOutOfRange nr → argumentError nr i = none) := by
  cases i with
  | keyExpand len => exact ⟨fun h => h.2, fun h => if_pos h, False.elim, fun h _ => if_neg h⟩
  | addRoundKey | ksRead | tblRead => exact ⟨fun h => h.1, False.elim, fun h => if_pos h, fun _ h => if_neg h⟩
  | _ => exact ⟨fun h => h.1, False.elim, False.elim, fun _ _ => rfl⟩

/-- Settles O11: a word that does not decode is illegal, and a command reports the first error that its checks meet. -/
theorem errorsFollowCauseAndPriority : Obligations.ErrorsFollowCauseAndPriority := by
  intro s
  cases hd : decode s.lcmd with
  | error e => exact ⟨_, perform_illegal ⟨e, hd⟩, fun _ _ => rfl, fun _ hi => nomatch hi⟩
  | ok i =>
    obtain ⟨t, ht, herr⟩ := exec_reports i s
    refine ⟨t, (perform_of_decode hd).trans ht, fun _ he => (nomatch he), fun j hj => ?_⟩
    obtain rfl := Except.ok.inj hj
    rw [herr, firstError_eq]
    refine ⟨fun h => if_pos h, fun htables => ⟨fun h => (if_neg htables).trans (if_pos h), fun hcontext => ?_⟩⟩
    rw [if_neg htables, if_neg hcontext]
    exact argumentError_spec s.ctx.nr.toNat i

/-! ### How long ERR, DONE and OVR stay (R105, R106) -/

/-- A host turn that is no acceptance leaves ERR and DONE alone, and can only set OVR (R36, R39, R40). -/
theorem hostTurn_keepsStatus {a : Access} {s t : State} (h : hostTurn a s = .next t)
    (haccept : ¬ (s.phase = .idle ∧ t.phase = .busy)) :
    (s.ovr = true → t.ovr = true) ∧ t.err = s.err ∧ t.done = s.done := by
  obtain ⟨r, rfl⟩ | ⟨r, v, rfl⟩ := hostTurn_next h
  · exact ⟨id, rfl, rfl⟩
  · obtain ⟨hidle, e⟩ | ⟨-, e⟩ | ⟨key, e⟩ | ⟨din, e⟩ := hostWrite_cases r v s <;> rw [e] at haccept ⊢
    · exact absurd ⟨hidle, accept_phase v s⟩ haccept
    · exact ⟨fun _ => rfl, rfl, rfl⟩
    · exact ⟨id, rfl, rfl⟩
    · exact ⟨id, rfl, rfl⟩

/-- Either end of a command completes it and leaves OVR alone (R85, R104). -/
theorem CommandEnd.idle_and_ovr {s t : State} {o : Out} (h : CommandEnd s o) (ho : o = .next t) :
    t.phase = .idle ∧ t.ovr = s.ovr := by
  cases h <;> obtain rfl := Host.Outcome.next.inj ho <;> exact ⟨rfl, rfl⟩

/-- Settles O13: a core step completes and leaves OVR alone, and no host turn but an acceptance clears any of the three. -/
theorem errorAndOverrunStayUntilAcceptance : Obligations.ErrorAndOverrunStayUntilAcceptance := by
  intro s t hstep hreset haccept
  obtain ⟨a, rest, -, h⟩ | ⟨hbusy, rest, -, h⟩ | ⟨-, rest, rfl⟩ | ⟨rest, hag, -⟩ := step_next hstep
  · obtain ⟨hovr, hstatus⟩ := hostTurn_keepsStatus h haccept
    exact ⟨hovr, fun _ => hstatus⟩
  · obtain ⟨hidle, hovr⟩ := (perform_end { s with agenda := rest }).idle_and_ovr h
    refine ⟨hovr.trans, fun hphase => ?_⟩
    exact nomatch hidle.symm.trans (hphase.trans hbusy)
  · exact ⟨id, fun _ => ⟨rfl, rfl⟩⟩
  · exact absurd (congrArg List.head? hag) hreset

end Sys2Proof.Machine
end

section
/-! PROOFS. Reset and hazards (70_reset_and_hazards.md): what the reset input leaves (R115, R116), and that a command in flight
completes in the step after its latency (R121). -/

namespace Sys2Proof.Machine

/-! ### A command in flight through the host's turns (R43, R121) -/

/-- `t` has in flight the command that `s` latched, with the same snapshots, and has the window where `s` has it. -/
structure StillInFlight (s t : State) : Prop where
  phase : t.phase = .busy
  lcmd : t.lcmd = s.lcmd
  lkey : t.lkey = s.lkey
  ldin : t.ldin = s.ldin
  aesBase : t.aesBase = s.aesBase

theorem StillInFlight.refl {s : State} (hbusy : s.phase = .busy) : StillInFlight s s := ⟨hbusy, rfl, rfl, rfl, rfl⟩

theorem StillInFlight.trans {s t u : State} (h : StillInFlight s t) (h' : StillInFlight t u) : StillInFlight s u :=
  ⟨h'.phase, h'.lcmd.trans h.lcmd, h'.lkey.trans h.lkey, h'.ldin.trans h.ldin, h'.aesBase.trans h.aesBase⟩

/-- A supported access is answered (R34). -/
theorem hostTurn_of_supported {a : Access} {s : State} (h : a.supported s.aesBase) : ∃ t, hostTurn a s = .next t := by
  cases a with
  | read addr width => exact ⟨_, hostTurn_read_of_supported h⟩
  | write addr width v => exact ⟨_, hostTurn_write_of_supported h⟩

/-- No host turn touches a command in flight: a CMD write is dropped (R39), and KEY and DIN are not the snapshots (R40). -/
theorem hostTurn_keepsInFlight {a : Access} {s t : State} (hbusy : s.phase = .busy) (h : hostTurn a s = .next t) :
    StillInFlight s t ∧ t.agenda = s.agenda := by
  obtain ⟨r, rfl⟩ | ⟨r, v, rfl⟩ := hostTurn_next h
  · exact ⟨⟨hbusy, rfl, rfl, rfl, rfl⟩, rfl⟩
  · obtain ⟨hidle, -⟩ | ⟨-, e⟩ | ⟨key, e⟩ | ⟨din, e⟩ := hostWrite_cases r v s
    · exact nomatch hidle.symm.trans hbusy
    all_goals exact e ▸ ⟨⟨hbusy, rfl, rfl, rfl, rfl⟩, rfl⟩

/-- A step whose turn is a supported access takes that turn from the agenda and leaves the command in flight. -/
theorem step_keepsInFlight {s : State} {a : Access} {rest : List Turn} (hbusy : s.phase = .busy)
    (hagenda : s.agenda = .host a :: rest) (ha : a.supported s.aesBase) :
    ∃ t, step s = .next t ∧ StillInFlight s t ∧ t.agenda = rest := by
  obtain ⟨t, ht⟩ := hostTurn_of_supported (s := { s with agenda := rest }) ha
  obtain ⟨hflight, hrest⟩ := hostTurn_keepsInFlight (s := { s with agenda := rest }) hbusy ht
  exact ⟨t, (step_of_host_next hagenda).trans ht, { hflight with }, hrest⟩

/-- No more steps than the latency leave the command in flight. -/
theorem runSteps_keepsInFlight {agenda : List Turn} {s : State} {n : Nat} (hagenda : s.agenda = agenda)
    (hbusy : s.phase = .busy) (hplain : ∀ turn ∈ agenda, turn.plain s.aesBase) (hn : n ≤ cmdLatency agenda) :
    ∃ t, runSteps n s = .next t ∧ StillInFlight s t := by
  induction agenda generalizing s n with
  | nil =>
    obtain rfl := Nat.le_zero.1 hn
    exact ⟨s, rfl, .refl hbusy⟩
  | cons turn rest ih =>
    cases n with
    | zero => exact ⟨s, rfl, .refl hbusy⟩
    | succ n =>
      cases turn with
      | core | reset => exact absurd hn (Nat.not_succ_le_zero n)
      | host a =>
        obtain ⟨ha, hrest⟩ := List.forall_mem_cons.1 hplain
        obtain ⟨u, hu, hflight, hagenda'⟩ := step_keepsInFlight hbusy hagenda ha
        obtain ⟨t, ht, hflight'⟩ := ih hagenda' hflight.phase (hflight.aesBase ▸ hrest) (Nat.le_of_succ_le_succ hn)
        exact ⟨t, by rw [runSteps, hu, andThen_next, ht], hflight.trans hflight'⟩

/-! ### Completion after the latency (R85, R108, R121) -/

/-- Either end of a command completes it (R85). -/
theorem CommandEnd.completes {s : State} {o : Out} (h : CommandEnd s o) :
    ∃ t, o = .next t ∧ t.phase = .idle ∧ t.done = true := by
  cases h with
  | failed | done => exact ⟨_, rfl, rfl, rfl⟩

/-- The core's turn completes a command in flight. -/
theorem coreTurn_completes {s : State} (hbusy : s.phase = .busy) :
    ∃ t, coreTurn s = .next t ∧ t.phase = .idle ∧ t.done = true := by
  rw [coreTurn_busy s hbusy]
  exact (perform_end s).completes

/-- A run of one step is that step, whatever it answers. -/
theorem runSteps_one (s : State) : runSteps 1 s = step s := by
  simp only [runSteps]
  cases step s <;> rfl

/-- One step more than the latency completes the command: the host's turns pass, and the next is the core's or none. -/
theorem runSteps_completes {agenda : List Turn} {s : State} (hagenda : s.agenda = agenda) (hbusy : s.phase = .busy)
    (hplain : ∀ turn ∈ agenda, turn.plain s.aesBase) :
    ∃ t, runSteps (cmdLatency agenda + 1) s = .next t ∧ t.phase = .idle ∧ t.done = true := by
  induction agenda generalizing s with
  | nil =>
    rw [cmdLatency, runSteps_one, step_of_no_turn hagenda]
    exact coreTurn_completes hbusy
  | cons turn rest ih =>
    obtain ⟨hturn, hrest⟩ := List.forall_mem_cons.1 hplain
    cases turn with
    | core =>
      rw [cmdLatency, runSteps_one, step_of_core_next hagenda]
      exact coreTurn_completes (s := { s with agenda := rest }) hbusy
    | reset => exact hturn.elim
    | host a =>
      obtain ⟨u, hu, hflight, hagenda'⟩ := step_keepsInFlight hbusy hagenda hturn
      rw [cmdLatency, runSteps, hu, andThen_next]
      exact ih hagenda' hflight.phase (hflight.aesBase ▸ hrest)

/-- Settles O56, by induction on the agenda: each host turn leaves the command in flight, and the turn after them is the core's
or none, which completes it. -/
theorem commandCompletesAfterItsLatency : Obligations.CommandCompletesAfterItsLatency := by
  intro s hbusy hplain
  refine ⟨fun n hn => ?inFlight, runSteps_completes rfl hbusy hplain⟩
  case inFlight =>
    obtain ⟨t, ht, hflight⟩ := runSteps_keepsInFlight rfl hbusy hplain hn
    exact ⟨t, ht, hflight.phase, hflight.lcmd, hflight.lkey, hflight.ldin⟩

/-! ### The reset input (R115, R116) -/

/-- The state after reset has the values of R115: its visible registers are those that read 0. -/
theorem reset_hasResetValues : State.reset.HasResetValues where
  schedule i := Vector.getElem_replicate i.isLt
  nk := rfl
  nr := rfl
  st i := Vector.getElem_replicate i.isLt
  cmd := readRegister_reset .cmd
  rdata := readRegister_reset .rdata
  key k := readRegister_reset (.key k)
  din k := readRegister_reset (.din k)
  dout k := readRegister_reset (.dout k)
  status := readRegister_reset .status
  fields := ⟨rfl, rfl, rfl, rfl, rfl⟩
  phase := rfl

/-- The reset input gives those values, since what it keeps is not the core's (log entry 11). -/
theorem resetTurn_hasResetValues (s : State) : (resetTurn s).HasResetValues := { reset_hasResetValues with }

/-- The reset input sees nothing of a state but what is not the core's. -/
theorem resetTurn_congr {s s' : State} (hbase : s'.aesBase = s.aesBase) (hagenda : s'.agenda = s.agenda)
    (hreply : s'.reply = s.reply) (hdraws : s'.draws = s.draws) : resetTurn s' = resetTurn s := by
  rw [resetTurn, resetTurn, hbase, hagenda, hreply, hdraws]

theorem step_of_reset_next {s : State} {rest : List Turn} (h : s.agenda = .reset :: rest) :
    step s = .next (resetTurn { s with agenda := rest }) := by
  simp only [step, h]

/-- A CMD write that is next while the core is idle is accepted (R38). -/
theorem step_accepts {s : State} {v : Word} {rest : List Turn} (hagenda : s.agenda = .host (.write s.aesBase 4 v) :: rest)
    (hidle : s.phase = .idle) : step s = .next (State.accept v { s with agenda := rest }) := by
  rw [step_of_host_next hagenda, ← issue_idle v { s with agenda := rest } hidle]
  exact hostTurn_write_cmd { s with agenda := rest } v

/-- Settles O1: the step is the reset input's turn, which leaves the reset values whatever the core was doing, and an idle core
accepts. -/
theorem resetInputGivesTheResetValues : Obligations.ResetInputGivesTheResetValues := by
  refine ⟨reset_hasResetValues, fun s rest hagenda => ?values, fun s s' rest hagenda hagenda' hbase hreply hdraws => ?alike,
    fun s v rest hagenda => ?accepts⟩
  case values => exact ⟨_, step_of_reset_next hagenda, resetTurn_hasResetValues _, rfl, rfl⟩
  case alike =>
    rw [step_of_reset_next hagenda, step_of_reset_next hagenda', resetTurn_congr (s := { s with agenda := rest })]
    exacts [hbase, rfl, hreply, hdraws]
  case accepts => exact ⟨_, _, step_of_reset_next hagenda, rfl, step_accepts rfl rfl, rfl, rfl, rfl⟩

end Sys2Proof.Machine
end
